-- ==== Sys2Proof/Word.lean ====
section
/-! DEFINITION. The machine's words: 8-bit bytes, 16-bit words, and the operand fields of an instruction (R8, R83). -/

namespace Sys2Proof

/-- An 8-bit value: a general register, a timer, a memory cell, an immediate `nn` (R7). -/
abbrev Byte := BitVec 8

/-- A 16-bit value: `I`, `pc`, a stack entry, an instruction word (R7, R25, R80). -/
abbrev Word := BitVec 16

/-- A general register number, the field `x` or `y` (R21, R83). -/
abbrev RegNo := BitVec 4

/-- A 12-bit address field `nnn` (R83). -/
abbrev Addr12 := BitVec 12

/-- The row count `n` of a sprite (R83, R85). -/
abbrev Nibble := BitVec 4

end Sys2Proof
end

