-- ==== Sys2Proof/Config.lean ====
section
/-! DEFINITION. The implementation parameters of R7: the fixed ones as constants, `STACK_DEPTH` and `FONT_ROM` as the record `Params`, the random source as a free value. -/

namespace Sys2Proof.Config

/-- `MEM_SIZE`: addresses 0x000..0xFFF (R7, R50). -/
def memSize : Nat := 4096

/-- `FONT_SIZE`: 16 glyphs of 5 bytes, at `FONT_BASE` = 0x000 (R7, R261). -/
def fontSize : Nat := 80

/-- `PROG_BASE`: where LOAD puts a program, and the reset value of `pc` (R7, R52). -/
def progBase : Nat := 0x200

/-- `PROG_MAX`: the longest program LOAD accepts (R7, R264). -/
def progMax : Nat := 3584

/-- `DISP_W` (R7). -/
def dispW : Nat := 64

/-- `DISP_H` (R7). -/
def dispH : Nat := 32

/-- One byte of the random source `RNG` for each CXNN, selected by the number of draws made before it (R29, R162).
A free value: it has no body, so nothing holds of it but that it is a byte (log 4). -/
opaque rng : Nat → Byte

/-- The conventional font image, glyph `d` at bytes `5d .. 5d+4`.
PRESUMED: 93_implementation_defined.md K4 offers it from general knowledge, the source does not list the bytes (N1, D16; log 3). -/
def conventionalFont : Vector Byte 80 := #v[
  0xF0, 0x90, 0x90, 0x90, 0xF0,
  0x20, 0x60, 0x20, 0x20, 0x70,
  0xF0, 0x10, 0xF0, 0x80, 0xF0,
  0xF0, 0x10, 0xF0, 0x10, 0xF0,
  0x90, 0x90, 0xF0, 0x10, 0x10,
  0xF0, 0x80, 0xF0, 0x10, 0xF0,
  0xF0, 0x80, 0xF0, 0x90, 0xF0,
  0xF0, 0x10, 0x20, 0x40, 0x40,
  0xF0, 0x90, 0xF0, 0x90, 0xF0,
  0xF0, 0x90, 0xF0, 0x10, 0xF0,
  0xF0, 0x90, 0xF0, 0x90, 0x90,
  0xE0, 0x90, 0xE0, 0x90, 0xE0,
  0xF0, 0x80, 0x80, 0x80, 0xF0,
  0xE0, 0x90, 0x90, 0x90, 0xE0,
  0xF0, 0x80, 0xF0, 0x80, 0xF0,
  0xF0, 0x80, 0xF0, 0x80, 0x80]

end Sys2Proof.Config

namespace Sys2Proof

/-- The parameters a model takes as arguments (R7). They are fixed for one block: no step and no command changes them.
They stand in `State` so that a claim about every state is a claim about every value of them (log 2, log 3). -/
structure Params where
  /-- `STACK_DEPTH`: `none` is unbounded (R32). -/
  stackDepth : Option Nat
  /-- `FONT_ROM` (R261). -/
  fontRom : Vector Byte 80
  deriving DecidableEq, Repr

/-- The default parameters: unbounded stack (R7, R32), conventional font (PRESUMED, log 3). -/
def Params.default : Params where
  stackDepth := none
  fontRom := Config.conventionalFont

end Sys2Proof
end

