-- ==== Sys2Proof/Syntax.lean ====
section
/-! DEFINITION. The 34 operations of the opcode map (R88), one constructor per row of spec/opcode_table.json, in the table's order. -/

namespace Sys2Proof

/-- One operation with its fields (R86). The bits R84 marks `-` are not fields: words that differ in them are the same instruction (log 15). -/
inductive Instr where
  /-- `00E0` CLS (R111) -/
  | cls
  /-- `00EE` RET (R130) -/
  | ret
  /-- `1NNN` JP nnn (R131) -/
  | jp (nnn : Addr12)
  /-- `2NNN` CALL nnn (R132) -/
  | call (nnn : Addr12)
  /-- `3XNN` SE Vx, nn (R133) -/
  | seImm (x : RegNo) (nn : Byte)
  /-- `4XNN` SNE Vx, nn (R134) -/
  | sneImm (x : RegNo) (nn : Byte)
  /-- `5XY-` SE Vx, Vy (R135) -/
  | seReg (x y : RegNo)
  /-- `6XNN` LD Vx, nn (R151) -/
  | ldImm (x : RegNo) (nn : Byte)
  /-- `7XNN` ADD Vx, nn (R152) -/
  | addImm (x : RegNo) (nn : Byte)
  /-- `8XY0` LD Vx, Vy (R153) -/
  | ldReg (x y : RegNo)
  /-- `8XY1` OR Vx, Vy (R154) -/
  | orReg (x y : RegNo)
  /-- `8XY2` AND Vx, Vy (R155) -/
  | andReg (x y : RegNo)
  /-- `8XY3` XOR Vx, Vy (R156) -/
  | xorReg (x y : RegNo)
  /-- `8XY4` ADD Vx, Vy (R157) -/
  | addReg (x y : RegNo)
  /-- `8XY5` SUB Vx, Vy (R158) -/
  | subReg (x y : RegNo)
  /-- `8XY6` SHR Vx, the field `y` decoded and unused (R159) -/
  | shr (x y : RegNo)
  /-- `8XY7` SUBN Vx, Vy (R160) -/
  | subnReg (x y : RegNo)
  /-- `8XYE` SHL Vx, the field `y` decoded and unused (R161) -/
  | shl (x y : RegNo)
  /-- `9XY-` SNE Vx, Vy (R136) -/
  | sneReg (x y : RegNo)
  /-- `ANNN` LD I, nnn (R180) -/
  | ldI (nnn : Addr12)
  /-- `BNNN` JP V0, nnn (R139) -/
  | jpV0 (nnn : Addr12)
  /-- `CXNN` RND Vx, nn (R162) -/
  | rnd (x : RegNo) (nn : Byte)
  /-- `DXYN` DRW Vx, Vy, n (R117) -/
  | drw (x y : RegNo) (n : Nibble)
  /-- `EX9E` SKP Vx (R200) -/
  | skp (x : RegNo)
  /-- `EXA1` SKNP Vx (R201) -/
  | sknp (x : RegNo)
  /-- `FX07` LD Vx, DT (R202) -/
  | ldVxDt (x : RegNo)
  /-- `FX0A` LD Vx, K (R203) -/
  | ldVxK (x : RegNo)
  /-- `FX15` LD DT, Vx (R204) -/
  | ldDtVx (x : RegNo)
  /-- `FX18` LD ST, Vx (R205) -/
  | ldStVx (x : RegNo)
  /-- `FX1E` ADD I, Vx (R181) -/
  | addI (x : RegNo)
  /-- `FX29` LD F, Vx (R182) -/
  | ldF (x : RegNo)
  /-- `FX33` LD B, Vx (R185) -/
  | ldB (x : RegNo)
  /-- `FX55` LD [I], Vx (R186) -/
  | storeRegs (x : RegNo)
  /-- `FX65` LD Vx, [I] (R187) -/
  | loadRegs (x : RegNo)
  deriving DecidableEq, Repr

end Sys2Proof
end

