-- ==== Sys2Proof/WellFormed.lean ====
section
/-! DEFINITION. What counts as a well-formed instruction word (R89) and a well-formed program image (R264).
Terms of `Instr` need no check of their own: each operand has exactly its field's width (R83) and no operand value is reserved (R90). -/

namespace Sys2Proof

/-- A legal instruction word, by R89's table of the illegal ones: only a sub-key of family 0x0, 0x8, 0xE or 0xF can fail. -/
def wordWellFormed (w : Word) : Bool :=
  let family := w.toNat / 4096
  let nn := w.toNat % 256
  let n := w.toNat % 16
  if family = 0x0 then [0xE0, 0xEE].contains nn
  else if family = 0x8 then !([0x8, 0x9, 0xA, 0xB, 0xC, 0xD, 0xF].contains n)
  else if family = 0xE then [0x9E, 0xA1].contains nn
  else if family = 0xF then [0x07, 0x0A, 0x15, 0x18, 0x1E, 0x29, 0x33, 0x55, 0x65].contains nn
  else true

/-- A program LOAD can copy to 0x200 without passing 0xFFF; keeping to it is a host duty (R242, R264). -/
def programWellFormed (p : List Byte) : Bool :=
  decide (p.length ≤ Config.progMax)

end Sys2Proof
end

