-- ==== Sys2Proof/Decode.lean ====
section
/-! DEFINITION. The fields of an instruction word (R83), the two-level decoder (R86 to R91), the opcode map (R88), and the encoder. -/

namespace Sys2Proof

/-! ## Fields (R83) -/

/-- `w[15:12]`, the family. -/
def Word.family (w : Word) : Nibble := w.extractLsb' 12 4

/-- `w[11:8]`. -/
def Word.x (w : Word) : RegNo := w.extractLsb' 8 4

/-- `w[7:4]`. -/
def Word.y (w : Word) : RegNo := w.extractLsb' 4 4

/-- `w[3:0]`. -/
def Word.n (w : Word) : Nibble := w.extractLsb' 0 4

/-- `w[7:0]`. -/
def Word.nn (w : Word) : Byte := w.extractLsb' 0 8

/-- `w[11:0]`. -/
def Word.nnn (w : Word) : Addr12 := w.extractLsb' 0 12

/-! ## Decoding -/

/-- Why a byte sequence is no instruction. -/
inductive DecodeError where
  /-- The word matches no row of the opcode map (R89). -/
  | illegalInstruction (w : Word)
  /-- Fewer than the two bytes every instruction has (R80). -/
  | tooShort
  deriving DecidableEq, Repr

/-- Level 2 for family 0x0, on `nn` only: the `x` nibble takes no part (R87). -/
def decodeFamily0 (w : Word) : Except DecodeError Instr :=
  match Word.nn w with
  | 0xE0#8 => .ok .cls
  | 0xEE#8 => .ok .ret
  | _ => .error (.illegalInstruction w)

/-- Level 2 for family 0x8, on `n` (R86, R88). -/
def decodeFamily8 (w : Word) : Except DecodeError Instr :=
  match Word.n w with
  | 0x0#4 => .ok (.ldReg (Word.x w) (Word.y w))
  | 0x1#4 => .ok (.orReg (Word.x w) (Word.y w))
  | 0x2#4 => .ok (.andReg (Word.x w) (Word.y w))
  | 0x3#4 => .ok (.xorReg (Word.x w) (Word.y w))
  | 0x4#4 => .ok (.addReg (Word.x w) (Word.y w))
  | 0x5#4 => .ok (.subReg (Word.x w) (Word.y w))
  | 0x6#4 => .ok (.shr (Word.x w) (Word.y w))
  | 0x7#4 => .ok (.subnReg (Word.x w) (Word.y w))
  | 0xE#4 => .ok (.shl (Word.x w) (Word.y w))
  | _ => .error (.illegalInstruction w)

/-- Level 2 for family 0xE, on `nn` (R86, R88). -/
def decodeFamilyE (w : Word) : Except DecodeError Instr :=
  match Word.nn w with
  | 0x9E#8 => .ok (.skp (Word.x w))
  | 0xA1#8 => .ok (.sknp (Word.x w))
  | _ => .error (.illegalInstruction w)

/-- Level 2 for family 0xF, on `nn` (R86, R88). -/
def decodeFamilyF (w : Word) : Except DecodeError Instr :=
  match Word.nn w with
  | 0x07#8 => .ok (.ldVxDt (Word.x w))
  | 0x0A#8 => .ok (.ldVxK (Word.x w))
  | 0x15#8 => .ok (.ldDtVx (Word.x w))
  | 0x18#8 => .ok (.ldStVx (Word.x w))
  | 0x1E#8 => .ok (.addI (Word.x w))
  | 0x29#8 => .ok (.ldF (Word.x w))
  | 0x33#8 => .ok (.ldB (Word.x w))
  | 0x55#8 => .ok (.storeRegs (Word.x w))
  | 0x65#8 => .ok (.loadRegs (Word.x w))
  | _ => .error (.illegalInstruction w)

/-- `Decode(w)` (R86, R91): level 1 on the family. The 16 families are all named, so the last line answers for none of them. -/
def decode (w : Word) : Except DecodeError Instr :=
  match Word.family w with
  | 0x0#4 => decodeFamily0 w
  | 0x1#4 => .ok (.jp (Word.nnn w))
  | 0x2#4 => .ok (.call (Word.nnn w))
  | 0x3#4 => .ok (.seImm (Word.x w) (Word.nn w))
  | 0x4#4 => .ok (.sneImm (Word.x w) (Word.nn w))
  | 0x5#4 => .ok (.seReg (Word.x w) (Word.y w))
  | 0x6#4 => .ok (.ldImm (Word.x w) (Word.nn w))
  | 0x7#4 => .ok (.addImm (Word.x w) (Word.nn w))
  | 0x8#4 => decodeFamily8 w
  | 0x9#4 => .ok (.sneReg (Word.x w) (Word.y w))
  | 0xA#4 => .ok (.ldI (Word.nnn w))
  | 0xB#4 => .ok (.jpV0 (Word.nnn w))
  | 0xC#4 => .ok (.rnd (Word.x w) (Word.nn w))
  | 0xD#4 => .ok (.drw (Word.x w) (Word.y w) (Word.n w))
  | 0xE#4 => decodeFamilyE w
  | 0xF#4 => decodeFamilyF w
  | _ => .error (.illegalInstruction w)

/-- The instruction word of two bytes, the first one high-order (R56, R80). -/
def wordOfBytes (hi lo : Byte) : Word := hi ++ lo

/-- Decoding from bytes: exactly two are consumed (R80); the rest is handed back. -/
def decodeBytes : List Byte → Except DecodeError (Instr × List Byte)
  | hi :: lo :: rest =>
    match decode (wordOfBytes hi lo) with
    | .ok i => .ok (i, rest)
    | .error e => .error e
  | _ => .error .tooShort

/-! ## Encoding -/

/-- Format `A`: family, `nnn` (R84). -/
def encodeA (family : Nibble) (nnn : Addr12) : Word := family ++ nnn

/-- Format `XK`: family, `x`, `nn`; format `XS` is the same with a fixed sub-key (R84). -/
def encodeXK (family : Nibble) (x : RegNo) (nn : Byte) : Word := (family ++ x : BitVec 8) ++ nn

/-- Formats `XYS` and `XYN`: family, `x`, `y`, `n`; format `XY` is the same with the ignored bits 3:0 (R84). -/
def encodeXYN (family : Nibble) (x y : RegNo) (n : Nibble) : Word := (family ++ x : BitVec 8) ++ (y ++ n : BitVec 8)

/-- The word of an instruction, from R88's rows; the bits R84 marks `-` are encoded as 0 (log 15). -/
def encode : Instr → Word
  | .cls => encodeXK 0x0 0x0 0xE0
  | .ret => encodeXK 0x0 0x0 0xEE
  | .jp nnn => encodeA 0x1 nnn
  | .call nnn => encodeA 0x2 nnn
  | .seImm x nn => encodeXK 0x3 x nn
  | .sneImm x nn => encodeXK 0x4 x nn
  | .seReg x y => encodeXYN 0x5 x y 0x0
  | .ldImm x nn => encodeXK 0x6 x nn
  | .addImm x nn => encodeXK 0x7 x nn
  | .ldReg x y => encodeXYN 0x8 x y 0x0
  | .orReg x y => encodeXYN 0x8 x y 0x1
  | .andReg x y => encodeXYN 0x8 x y 0x2
  | .xorReg x y => encodeXYN 0x8 x y 0x3
  | .addReg x y => encodeXYN 0x8 x y 0x4
  | .subReg x y => encodeXYN 0x8 x y 0x5
  | .shr x y => encodeXYN 0x8 x y 0x6
  | .subnReg x y => encodeXYN 0x8 x y 0x7
  | .shl x y => encodeXYN 0x8 x y 0xE
  | .sneReg x y => encodeXYN 0x9 x y 0x0
  | .ldI nnn => encodeA 0xA nnn
  | .jpV0 nnn => encodeA 0xB nnn
  | .rnd x nn => encodeXK 0xC x nn
  | .drw x y n => encodeXYN 0xD x y n
  | .skp x => encodeXK 0xE x 0x9E
  | .sknp x => encodeXK 0xE x 0xA1
  | .ldVxDt x => encodeXK 0xF x 0x07
  | .ldVxK x => encodeXK 0xF x 0x0A
  | .ldDtVx x => encodeXK 0xF x 0x15
  | .ldStVx x => encodeXK 0xF x 0x18
  | .addI x => encodeXK 0xF x 0x1E
  | .ldF x => encodeXK 0xF x 0x29
  | .ldB x => encodeXK 0xF x 0x33
  | .storeRegs x => encodeXK 0xF x 0x55
  | .loadRegs x => encodeXK 0xF x 0x65

/-- The bits of an instruction's word that its format reads; the others are those R84 marks `-` (R84, R87, R90). -/
def Instr.readBits : Instr → Word
  | .cls => 0xF0FF
  | .ret => 0xF0FF
  | .seReg _ _ => 0xFFF0
  | .sneReg _ _ => 0xFFF0
  | _ => 0xFFFF

/-- The two bytes of a word as memory holds them, high-order byte first (R56, R80). -/
def wordBytes (w : Word) : List Byte := [w.extractLsb' 8 8, w.extractLsb' 0 8]

/-! ## The opcode map (R88) -/

/-- One row: a word belongs to it when `(w AND mask) == value` (R86; the column the spec calls `match`). -/
structure OpcodeRow where
  mnemonic : String
  value : Word
  mask : Word
  deriving DecidableEq, Repr

/-- `(w AND mask) == match` (R86). -/
def OpcodeRow.covers (r : OpcodeRow) (w : Word) : Bool := (w &&& r.mask) == r.value

/-- Rows 1 to 18 of R88: families 0x0 to 0x8. -/
def opcodeMapLow : List OpcodeRow := [
  ⟨"CLS", 0x00E0, 0xF0FF⟩,
  ⟨"RET", 0x00EE, 0xF0FF⟩,
  ⟨"JP_nnn", 0x1000, 0xF000⟩,
  ⟨"CALL_nnn", 0x2000, 0xF000⟩,
  ⟨"SE_Vx__nn", 0x3000, 0xF000⟩,
  ⟨"SNE_Vx__nn", 0x4000, 0xF000⟩,
  ⟨"SE_Vx__Vy", 0x5000, 0xF000⟩,
  ⟨"LD_Vx__nn", 0x6000, 0xF000⟩,
  ⟨"ADD_Vx__nn", 0x7000, 0xF000⟩,
  ⟨"LD_Vx__Vy", 0x8000, 0xF00F⟩,
  ⟨"OR_Vx__Vy", 0x8001, 0xF00F⟩,
  ⟨"AND_Vx__Vy", 0x8002, 0xF00F⟩,
  ⟨"XOR_Vx__Vy", 0x8003, 0xF00F⟩,
  ⟨"ADD_Vx__Vy", 0x8004, 0xF00F⟩,
  ⟨"SUB_Vx__Vy", 0x8005, 0xF00F⟩,
  ⟨"SHR_Vx____Vy", 0x8006, 0xF00F⟩,
  ⟨"SUBN_Vx__Vy", 0x8007, 0xF00F⟩,
  ⟨"SHL_Vx____Vy", 0x800E, 0xF00F⟩]

/-- Rows 19 to 34 of R88: families 0x9 to 0xF. -/
def opcodeMapHigh : List OpcodeRow := [
  ⟨"SNE_Vx__Vy", 0x9000, 0xF000⟩,
  ⟨"LD_I__nnn", 0xA000, 0xF000⟩,
  ⟨"JP_V0__nnn", 0xB000, 0xF000⟩,
  ⟨"RND_Vx__nn", 0xC000, 0xF000⟩,
  ⟨"DRW_Vx__Vy__n", 0xD000, 0xF000⟩,
  ⟨"SKP_Vx", 0xE09E, 0xF0FF⟩,
  ⟨"SKNP_Vx", 0xE0A1, 0xF0FF⟩,
  ⟨"LD_Vx__DT", 0xF007, 0xF0FF⟩,
  ⟨"LD_Vx__K", 0xF00A, 0xF0FF⟩,
  ⟨"LD_DT__Vx", 0xF015, 0xF0FF⟩,
  ⟨"LD_ST__Vx", 0xF018, 0xF0FF⟩,
  ⟨"ADD_I__Vx", 0xF01E, 0xF0FF⟩,
  ⟨"LD_F__Vx", 0xF029, 0xF0FF⟩,
  ⟨"LD_B__Vx", 0xF033, 0xF0FF⟩,
  ⟨"LD__I___Vx", 0xF055, 0xF0FF⟩,
  ⟨"LD_Vx___I", 0xF065, 0xF0FF⟩]

/-- The 34 rows of R88, by the mnemonics of spec/opcode_table.json. -/
def opcodeMap : List OpcodeRow := opcodeMapLow ++ opcodeMapHigh

/-- The opcode-table row an instruction belongs to, by its mnemonic. -/
def Instr.mnemonic : Instr → String
  | .cls => "CLS"
  | .ret => "RET"
  | .jp _ => "JP_nnn"
  | .call _ => "CALL_nnn"
  | .seImm _ _ => "SE_Vx__nn"
  | .sneImm _ _ => "SNE_Vx__nn"
  | .seReg _ _ => "SE_Vx__Vy"
  | .ldImm _ _ => "LD_Vx__nn"
  | .addImm _ _ => "ADD_Vx__nn"
  | .ldReg _ _ => "LD_Vx__Vy"
  | .orReg _ _ => "OR_Vx__Vy"
  | .andReg _ _ => "AND_Vx__Vy"
  | .xorReg _ _ => "XOR_Vx__Vy"
  | .addReg _ _ => "ADD_Vx__Vy"
  | .subReg _ _ => "SUB_Vx__Vy"
  | .shr _ _ => "SHR_Vx____Vy"
  | .subnReg _ _ => "SUBN_Vx__Vy"
  | .shl _ _ => "SHL_Vx____Vy"
  | .sneReg _ _ => "SNE_Vx__Vy"
  | .ldI _ => "LD_I__nnn"
  | .jpV0 _ => "JP_V0__nnn"
  | .rnd _ _ => "RND_Vx__nn"
  | .drw _ _ _ => "DRW_Vx__Vy__n"
  | .skp _ => "SKP_Vx"
  | .sknp _ => "SKNP_Vx"
  | .ldVxDt _ => "LD_Vx__DT"
  | .ldVxK _ => "LD_Vx__K"
  | .ldDtVx _ => "LD_DT__Vx"
  | .ldStVx _ => "LD_ST__Vx"
  | .addI _ => "ADD_I__Vx"
  | .ldF _ => "LD_F__Vx"
  | .ldB _ => "LD_B__Vx"
  | .storeRegs _ => "LD__I___Vx"
  | .loadRegs _ => "LD_Vx___I"

/-! ## The host's question -/

/-- The first instruction word of `nbits` bits numbered as the opcode table numbers them (bit 0 the least significant of the first word);
bits at and above `nbits` are 0. -/
def tableWord (nbits w : Nat) : Word := BitVec.ofNat 16 (w % 2 ^ nbits)

/-- What the decoder reads from that word laid out in memory order. -/
def decodeTableWord (nbits w : Nat) : Option Instr :=
  match decodeBytes (wordBytes (tableWord nbits w)) with
  | .ok (i, _) => some i
  | .error _ => none

end Sys2Proof
end

