-- ==== Sys2Proof/Machine/State.lean ====
section
/-! DEFINITION. The state of the block (R20), its fault record (R221), its outcomes, and construction (R260). -/

namespace Sys2Proof.Machine

/-- What a fault is about: the record's `detail`, which also fixes its `code` (R220, R221).
Taking one is an effect the spec describes (R222): the step answers a next state that is halted (log 1). -/
inductive FaultCause where
  /-- Code 1, raised by decode of any word (R89); the word in the record is the detail. -/
  | illegalInstruction
  /-- Code 2, raised by 00EE on an empty stack (R130). -/
  | stackUnderflow
  /-- Code 3, raised by fetch, DXYN, FX33, FX55, FX65 (R55): the span of the failing access. -/
  | outOfRange (base len : Nat)
  /-- Code 4, raised by 2NNN on a full stack of finite depth (R132). -/
  | stackOverflow
  /-- Code 5, raised by EX9E and EXA1 when `V[x] > 15` (R206). -/
  | keyIndexOutOfRange (value : Byte)
  deriving DecidableEq, Repr

/-- The fault record (R221). `addr` is the record's `at`, `cause` its `detail`; the code is `FaultRecord.code` (log 9). -/
structure FaultRecord where
  /-- The address of the instruction: `pc` at the start of the step. -/
  addr : Word
  /-- The fetched word; absent for a fetch `OutOfRange`. -/
  word : Option Word
  cause : FaultCause
  deriving DecidableEq, Repr

/-- `status` (R37). -/
inductive Status where
  | running
  | halted (record : FaultRecord)
  deriving DecidableEq, Repr

/-- The keyboard snapshot (R35): set by the host as a whole, read-only to programs. -/
structure Keys where
  down : Vector Bool 16
  justPressed : Option (Fin 16)
  deriving DecidableEq, Repr

/-- The grid `disp[col][row]` of 1-bit cells (R33). -/
abbrev Display := Vector (Vector Bool 32) 64

/-- Memory: the bytes that differ from the construction image, by rising address (log 13). -/
abbrev Memory := List Host.Cell

/-- The state of R20, the parameters of R7 that a block carries, and the model's own count of random draws (log 4). -/
structure State where
  /-- `V0..VF` (R21). -/
  v : Vector Byte 16
  /-- `I` (R28). -/
  i : Word
  /-- `pc` (R25). -/
  pc : Word
  /-- `DT` (R30). -/
  dt : Byte
  /-- `ST` (R30). -/
  st : Byte
  /-- The call stack, its top at the end (R10, R31). -/
  stack : List Word
  /-- `M` (R50). -/
  mem : Memory
  /-- `disp` (R33). -/
  disp : Display
  /-- `wrap` (R34). -/
  wrap : Bool
  /-- `keys` (R35). -/
  keys : Keys
  /-- `status` (R37). -/
  status : Status
  /-- `STACK_DEPTH` and `FONT_ROM` of this block (R7). -/
  params : Params
  /-- The model's own: how many bytes the random source has given, which selects the next free draw (log 4). -/
  draws : Nat
  deriving DecidableEq, Repr

/-- Why the block makes no transition (a stuck state; the only way on is RESET). -/
inductive Fault where
  /-- STEP, TICK, LOAD, SET_KEYS or SET_WRAP on a halted block: `step` and `Command.apply` raise it, with the record of the fault that halted the block (R238, log 1).
  Safe: the spec gives these commands no transition, and nothing can be proved of a state after them. -/
  | halted (record : FaultRecord)
  deriving DecidableEq, Repr

/-- Why the model gives no meaning. -/
inductive Refusal where
  /-- `exec` refuses an instruction without a meaning. Safe: nothing can be proved of its effect. No instruction is refused so. -/
  | notModelled (mnemonic : String)
  /-- The host command LOAD refuses a program longer than 3584 bytes (R264, D18, log 14).
  Safe: the spec refuses it too, and no run goes through it. -/
  | loadTooLong (len : Nat)
  deriving DecidableEq, Repr

/-- The state at construction, for the parameters given (R260, R39). -/
def State.construct (p : Params) : State where
  v := Vector.replicate 16 0
  i := 0
  pc := BitVec.ofNat 16 Config.progBase
  dt := 0
  st := 0
  stack := []
  mem := []
  disp := Vector.replicate 64 (Vector.replicate 32 false)
  wrap := false
  keys := { down := Vector.replicate 16 false, justPressed := none }
  status := .running
  params := p
  draws := 0

/-- The machine right after construction with the default parameters (R39, R260; log 2, log 3, log 5). -/
def State.reset : State := State.construct Params.default

end Sys2Proof.Machine
end

