-- ==== Sys2Proof/Machine/Ops.lean ====
section
/-! DEFINITION. The named operations over registers, memory, the stack and `pc`; taking a fault, and the RESET that returns from one. -/

namespace Sys2Proof.Machine

/-! ## Registers (R21) -/

/-- `V[k]` (R10). -/
def State.reg (s : State) (k : RegNo) : Byte := s.v[k.toNat]'k.isLt

/-- `V[k] <- b` (R10). -/
def State.setReg (s : State) (k : RegNo) (b : Byte) : State :=
  { s with v := s.v.set k.toNat b k.isLt }

/-- `VF`, `V[15]` (R22). -/
abbrev vf : RegNo := 15#4

/-- `V[0] <- b0`, `V[1] <- b1`, … for the bytes given, from register `k` up (R187). -/
def State.setRegsFrom (s : State) (k : Nat) : List Byte → State
  | [] => s
  | b :: bs => (s.setReg (BitVec.ofNat 4 k) b).setRegsFrom (k + 1) bs

/-! ## Memory (R50 to R58) -/

/-- What an address reads as at construction and after RESET: the font image at 0x000..0x04F, 0 elsewhere (R39, R52, R260).
This is what an unlisted address of `Memory` reads as. -/
def unlisted (font : Vector Byte 80) (a : Nat) : Byte :=
  if h : a < 80 then font[a] else 0

/-- `M[a]`. -/
def Memory.read (font : Vector Byte 80) : Memory → Nat → Byte
  | [], a => unlisted font a
  | (b, w) :: m, a => if a = b then w else Memory.read font m a

/-- No entry for `a`. -/
def Memory.erase (m : Memory) (a : Nat) : Memory := m.filter (fun c => c.1 ≠ a)

/-- An entry for `a` before the first higher address. -/
def Memory.insert : Memory → Nat → Byte → Memory
  | [], a, w => [(a, w)]
  | c :: m, a, w => if a < c.1 then (a, w) :: c :: m else c :: Memory.insert m a w

/-- `M[a] <- w`, keeping the canonical form: a byte written back to its construction value has no entry (log 13). -/
def Memory.write (font : Vector Byte 80) (m : Memory) (a : Nat) (w : Byte) : Memory :=
  if w = unlisted font a then m.erase a else (m.erase a).insert a w

/-- The canonical form: strictly rising addresses inside memory, no entry equal to what an unlisted address reads as. -/
abbrev Memory.wf (font : Vector Byte 80) (m : Memory) : Prop :=
  m.Pairwise (fun c d => c.1 < d.1) ∧ ∀ c ∈ m, c.1 < Config.memSize ∧ c.2 ≠ unlisted font c.1

/-- The `n` bytes at `a, a+1, …` (R54). -/
def Memory.readBytes (font : Vector Byte 80) (m : Memory) (a : Nat) : Nat → List Byte
  | 0 => []
  | n + 1 => m.read font a :: m.readBytes font (a + 1) n

/-- `M[a + k] <- bytes[k]`, in ascending order (R54, R56). -/
def Memory.writeBytes (font : Vector Byte 80) (m : Memory) (a : Nat) : List Byte → Memory
  | [] => m
  | w :: ws => (m.write font a w).writeBytes font (a + 1) ws

/-- `M[a]` of this block. -/
def State.byte (s : State) (a : Nat) : Byte := s.mem.read s.params.fontRom a

/-- `in_range(a, len)` (R54). -/
def inRange (a len : Nat) : Bool := decide (a < Config.memSize) && decide (a + len ≤ Config.memSize)

/-- `MemRead(a, len)` (R54): the whole span is checked before any byte moves. -/
def memRead (s : State) (a len : Nat) : Except FaultCause (List Byte) :=
  if inRange a len then .ok (s.mem.readBytes s.params.fontRom a len) else .error (.outOfRange a len)

/-- `MemWrite(a, len, bytes)` with `len` the length of `bytes` (R54). -/
def memWrite (s : State) (a : Nat) (bytes : List Byte) : Except FaultCause State :=
  if inRange a bytes.length then .ok { s with mem := s.mem.writeBytes s.params.fontRom a bytes }
  else .error (.outOfRange a bytes.length)

/-! ## Fetch (R81) -/

/-- The instruction word at `pc`, or `OutOfRange(pc, 2)`; the first byte is high-order (R55, R56). No alignment is asked (R57). -/
def fetch (s : State) : Except FaultCause Word :=
  match memRead s s.pc.toNat 2 with
  | .ok [hi, lo] => .ok (wordOfBytes hi lo)
  | .ok _ => .error (.outOfRange s.pc.toNat 2)
  | .error f => .error f

/-- The fetch's `pc <- pc + 2`, before dispatch (R81, R82). -/
def State.advance (s : State) : State := { s with pc := s.pc + 2 }

/-! ## Taking a fault (R222), and the way back (R226, R262) -/

/-- `status <- halted(record)` on the state `s` before the faulting step; nothing of the step has taken effect (R222, R224). -/
def State.halt (s : State) (word : Option Word) (cause : FaultCause) : State :=
  { s with status := .halted { addr := s.pc, word := word, cause := cause } }

/-- The state before the step, seen from its post-fetch state: the fetch's `pc + 2` is taken back (R222). -/
def State.rewound (s : State) : State := { s with pc := s.pc - 2 }

/-- The word the current step fetched: an instruction raises before it writes anything, so the word still stands at the rewound `pc` (log 9). -/
def State.fetchedWord (s : State) : Option Word :=
  match fetch s.rewound with
  | .ok w => some w
  | .error _ => none

/-- `raise <Fault>(info)` in an instruction (R10): the step ends, commits nothing, and the block is halted (R222). `s` is the post-fetch state.
This is taking an exception; the spec describes it, so it is a next state (log 1). -/
def raise (cause : FaultCause) (s : State) : Host.Outcome State Fault Refusal :=
  .next (s.rewound.halt s.fetchedWord cause)

/-- RESET (R262): the construction state, but `wrap` and `keys` stay, because the host owns them.
It is the only way out of `halted` (R226). The parameters stay, and so does the count of draws: RESET is not said to reseed the random source (N26, log 4). -/
def State.resetBlock (s : State) : State :=
  { State.construct s.params with wrap := s.wrap, keys := s.keys, draws := s.draws }

/-- The numeric code of a fault (R220). -/
def FaultRecord.code (r : FaultRecord) : Nat :=
  match r.cause with
  | .illegalInstruction => 1
  | .stackUnderflow => 2
  | .outOfRange _ _ => 3
  | .stackOverflow => 4
  | .keyIndexOutOfRange _ => 5

/-! ## Control transfer (R137, R138) -/

/-- `pc <- target` (R138). -/
def State.jump (s : State) (target : Word) : State := { s with pc := target }

/-- A skip from the post-fetch `pc` (R137). -/
def State.skipIf (s : State) (c : Bool) : State := if c then s.advance else s

/-! ## The call stack (R31, R32) -/

/-- The stack is full: `STACK_DEPTH` is finite and the length equals it (R132). -/
def State.stackFull (s : State) : Bool := s.params.stackDepth == some s.stack.length

/-- `push(stack, a)`: appends (R10). -/
def State.push (s : State) (a : Word) : State := { s with stack := s.stack ++ [a] }

/-- `pop(stack)`: removes and returns the last element, if there is one (R10). -/
def State.pop (s : State) : Option (Word × State) :=
  match s.stack.getLast? with
  | some a => some (a, { s with stack := s.stack.dropLast })
  | none => none

/-! ## The random source (R29) -/

/-- `draw RNG`: one free byte, and the state in which it has been drawn (R162, log 4). -/
def State.drawRandom (s : State) : Byte × State :=
  (Config.rng s.draws, { s with draws := s.draws + 1 })

/-! ## The keyboard (R206) -/

/-- `is_down(k)` for `k` in 0..15 (R206). -/
def State.isDown (s : State) (k : Fin 16) : Bool := s.keys.down[k]

/-! ## Timers (R230, R233) -/

/-- A timer stops at 0 (R231). -/
def countDown (t : Byte) : Byte := if t = 0 then 0 else t - 1

/-- `Tick()` (R230). -/
def State.tick (s : State) : State := { s with dt := countDown s.dt, st := countDown s.st }

/-- `sound_on = (ST != 0)` (R233). -/
def State.soundOn (s : State) : Bool := s.st != 0

end Sys2Proof.Machine
end

