-- ==== Sys2Proof/Machine/Flags.lean ====
section
/-! DEFINITION. What the flag-writing instructions put in `VF` (R24), and the results they pair it with (R163). -/

namespace Sys2Proof.Machine

/-- `bool01(c)` (R9). -/
def bool01 (c : Bool) : Byte := if c then 1 else 0

/-- 8XY4's flag: 1 exactly when `a + b > 255` (R24, R163). -/
def carryFlag (a b : Byte) : Byte := bool01 (decide (a.toNat + b.toNat > 255))

/-- 8XY5's flag for `a - b`, and 8XY7's with the operands exchanged: 1 exactly when `a >= b` (R24, R163). -/
def notBorrowFlag (a b : Byte) : Byte := bool01 (decide (a.toNat ≥ b.toNat))

/-- 8XY6's flag: bit 0 before the shift (R24). -/
def lowBitFlag (a : Byte) : Byte := a &&& 1

/-- 8XYE's flag: bit 7 before the shift (R24). -/
def highBitFlag (a : Byte) : Byte := (a >>> 7) &&& 1

/-- `sum mod 256` (R157, R163). -/
def wrappingAdd (a b : Byte) : Byte := BitVec.ofNat 8 ((a.toNat + b.toNat) % 256)

/-- `(a - b) mod 256` with the non-negative remainder (R9, R158). -/
def wrappingSub (a b : Byte) : Byte := BitVec.ofInt 8 (((a.toNat : Int) - (b.toNat : Int)) % 256)

/-- The clause order of the flag writers (R150): the flag is written to `VF` first; the result clause then reads the registers as that write left them, and writes `V[x]`. -/
def flagThenResult (x : RegNo) (flag : Byte) (result : State → Byte) (s : State) : State :=
  let s' := s.setReg vf flag
  s'.setReg x (result s')

end Sys2Proof.Machine
end

