-- ==== Sys2Proof/Machine/Operands.lean ====
section
/-! DEFINITION. The operand forms of R85 and R183: what an instruction's fields name. -/

namespace Sys2Proof.Machine

/-- An `nnn` operand as a 16-bit address, used unchanged (R85, R138). -/
def addrOperand (nnn : Addr12) : Word := nnn.setWidth 16

/-- BNNN's target `trunc_16(nnn + V[0])` (R139). -/
def indexedTarget (nnn : Addr12) (s : State) : Word := addrOperand nnn + (s.reg 0).setWidth 16

/-- The effective address of byte 0 of an access through `I`, as an unbounded natural (R183). -/
def State.base (s : State) : Nat := s.i.toNat

/-- `x` as a count: FX55 and FX65 move `V0..Vx`, x+1 registers (R85). -/
def blockLength (x : RegNo) : Nat := x.toNat + 1

/-- `[V[0], V[1], ..., V[x]]` (R186). -/
def blockOfRegs (s : State) (x : RegNo) : List Byte := (s.v.toList).take (blockLength x)

/-- The key index of EX9E and EXA1: `V[x]`, or `KeyIndexOutOfRange(V[x])` above 15 (R206). -/
def keyOperand (s : State) (x : RegNo) : Except FaultCause (Fin 16) :=
  if h : (s.reg x).toNat < 16 then .ok ⟨(s.reg x).toNat, h⟩ else .error (.keyIndexOutOfRange (s.reg x))

/-- The decimal digits of a byte: hundreds, tens, ones (R184). -/
def decimalDigits (b : Byte) : List Byte :=
  [BitVec.ofNat 8 (b.toNat / 100), BitVec.ofNat 8 (b.toNat / 10 % 10), BitVec.ofNat 8 (b.toNat % 10)]

/-- The address of the font glyph of a digit, `V[x] * 5`, unmasked (R182). -/
def glyphAddress (b : Byte) : Word := BitVec.ofNat 16 (b.toNat * 5)

end Sys2Proof.Machine
end

