-- ==== Sys2Proof/Machine/Alu.lean ====
section
/-! DEFINITION. Register and arithmetic instructions: 6XNN, 7XNN, 8XY0..8XY7, 8XYE, CXNN (42_alu.md). None of them faults or touches memory, `I`, the stack, the display or `pc`. -/

namespace Sys2Proof.Machine

/-- 6XNN LD Vx, nn (R151). -/
def execLdImm (x : RegNo) (nn : Byte) (s : State) : Host.Outcome State Fault Refusal :=
  .next (s.setReg x nn)

/-- 7XNN ADD Vx, nn (R152): the carry is discarded. -/
def execAddImm (x : RegNo) (nn : Byte) (s : State) : Host.Outcome State Fault Refusal :=
  .next (s.setReg x (wrappingAdd (s.reg x) nn))

/-- 8XY0 LD Vx, Vy (R153). -/
def execLdReg (x y : RegNo) (s : State) : Host.Outcome State Fault Refusal :=
  .next (s.setReg x (s.reg y))

/-- 8XY1 OR Vx, Vy (R154). -/
def execOrReg (x y : RegNo) (s : State) : Host.Outcome State Fault Refusal :=
  .next (s.setReg x (s.reg x ||| s.reg y))

/-- 8XY2 AND Vx, Vy (R155). -/
def execAndReg (x y : RegNo) (s : State) : Host.Outcome State Fault Refusal :=
  .next (s.setReg x (s.reg x &&& s.reg y))

/-- 8XY3 XOR Vx, Vy (R156). -/
def execXorReg (x y : RegNo) (s : State) : Host.Outcome State Fault Refusal :=
  .next (s.setReg x (s.reg x ^^^ s.reg y))

/-- 8XY4 ADD Vx, Vy (R157): the sum is formed before `VF` is written (R150). -/
def execAddReg (x y : RegNo) (s : State) : Host.Outcome State Fault Refusal :=
  .next (flagThenResult x (carryFlag (s.reg x) (s.reg y)) (fun _ => wrappingAdd (s.reg x) (s.reg y)) s)

/-- 8XY5 SUB Vx, Vy (R158): the operands of the result are read after the `VF` write (R150, log 10). -/
def execSubReg (x y : RegNo) (s : State) : Host.Outcome State Fault Refusal :=
  .next (flagThenResult x (notBorrowFlag (s.reg x) (s.reg y)) (fun t => wrappingSub (t.reg x) (t.reg y)) s)

/-- 8XY6 SHR Vx (R159): `y` is not used; the shifted register is read after the `VF` write (R150, log 10). -/
def execShr (x _y : RegNo) (s : State) : Host.Outcome State Fault Refusal :=
  .next (flagThenResult x (lowBitFlag (s.reg x)) (fun t => t.reg x >>> 1) s)

/-- 8XY7 SUBN Vx, Vy (R160): the operands of the result are read after the `VF` write (R150, log 10). -/
def execSubnReg (x y : RegNo) (s : State) : Host.Outcome State Fault Refusal :=
  .next (flagThenResult x (notBorrowFlag (s.reg y) (s.reg x)) (fun t => wrappingSub (t.reg y) (t.reg x)) s)

/-- 8XYE SHL Vx (R161): `y` is not used; the shifted register is read after the `VF` write (R150, log 10). -/
def execShl (x _y : RegNo) (s : State) : Host.Outcome State Fault Refusal :=
  .next (flagThenResult x (highBitFlag (s.reg x)) (fun t => t.reg x <<< 1) s)

/-- `V[x] <- r AND nn` for a drawn byte `r` (R162). -/
def maskedDraw (x : RegNo) (nn r : Byte) (s : State) : State := s.setReg x (r &&& nn)

/-- CXNN RND Vx, nn (R162): one free draw for each execution, also when `nn` is 0. -/
def execRnd (x : RegNo) (nn : Byte) (s : State) : Host.Outcome State Fault Refusal :=
  .next (maskedDraw x nn s.drawRandom.1 s.drawRandom.2)

end Sys2Proof.Machine
end

