-- ==== Sys2Proof/Machine/Control.lean ====
section
/-! DEFINITION. Control transfer: 00EE, 1NNN, 2NNN, 3XNN, 4XNN, 5XY0, 9XY0, BNNN (41_control_flow.md).
Every meaning takes the post-fetch state, `pc` two past the instruction (R82). -/

namespace Sys2Proof.Machine

/-- 00EE RET (R130). -/
def execRet (s : State) : Host.Outcome State Fault Refusal :=
  match s.pop with
  | none => raise .stackUnderflow s
  | some (a, s') => .next (s'.jump a)

/-- 1NNN JP nnn (R131). -/
def execJp (nnn : Addr12) (s : State) : Host.Outcome State Fault Refusal :=
  .next (s.jump (addrOperand nnn))

/-- 2NNN CALL nnn (R132): the pushed value is the post-fetch `pc`. -/
def execCall (nnn : Addr12) (s : State) : Host.Outcome State Fault Refusal :=
  if s.stackFull then raise .stackOverflow s
  else .next ((s.push s.pc).jump (addrOperand nnn))

/-- 3XNN SE Vx, nn (R133). -/
def execSeImm (x : RegNo) (nn : Byte) (s : State) : Host.Outcome State Fault Refusal :=
  .next (s.skipIf (s.reg x == nn))

/-- 4XNN SNE Vx, nn (R134). -/
def execSneImm (x : RegNo) (nn : Byte) (s : State) : Host.Outcome State Fault Refusal :=
  .next (s.skipIf (s.reg x != nn))

/-- 5XY0 SE Vx, Vy (R135). -/
def execSeReg (x y : RegNo) (s : State) : Host.Outcome State Fault Refusal :=
  .next (s.skipIf (s.reg x == s.reg y))

/-- 9XY0 SNE Vx, Vy (R136). -/
def execSneReg (x y : RegNo) (s : State) : Host.Outcome State Fault Refusal :=
  .next (s.skipIf (s.reg x != s.reg y))

/-- BNNN JP V0, nnn (R139): always `V0`, whatever bits 11:8 hold. -/
def execJpV0 (nnn : Addr12) (s : State) : Host.Outcome State Fault Refusal :=
  .next (s.jump (indexedTarget nnn s))

end Sys2Proof.Machine
end

