-- ==== Sys2Proof/Machine/Display.lean ====
section
/-! DEFINITION. The display controller (R110 to R116) and the display instructions 00E0 and DXYN. -/

namespace Sys2Proof.Machine

/-- `disp[c][r]`. -/
def Display.cell (d : Display) (c : Fin 64) (r : Fin 32) : Bool := d[c][r]

/-- `disp[c][r] <- disp[c][r] XOR 1` (R113). -/
def Display.toggle (d : Display) (c : Fin 64) (r : Fin 32) : Display :=
  d.set c ((d[c]).set r (!d[c][r]))

/-- `clear()` (R112). -/
def Display.clear : Display := Vector.replicate 64 (Vector.replicate 32 false)

/-- The cell a candidate column and row land on: reduced modulo the grid with wrap mode on (R115), the candidate itself or none with it off (R116). -/
def placeCell (wrap : Bool) (c r : Nat) : Option (Fin 64 × Fin 32) :=
  if wrap then some (⟨c % 64, Nat.mod_lt _ (by decide)⟩, ⟨r % 32, Nat.mod_lt _ (by decide)⟩)
  else if h : c < 64 ∧ r < 32 then some (⟨c, h.1⟩, ⟨r, h.2⟩) else none

/-- One bit of a sprite row at a candidate column and row: the grid and the collision flag so far (R113). Off-bits never touch the cell. -/
def drawBit (wrap bit : Bool) (c r : Nat) (acc : Display × Bool) : Display × Bool :=
  match placeCell wrap c r with
  | none => acc
  | some (col, row) =>
    if bit then (acc.1.toggle col row, acc.2 || acc.1.cell col row) else acc

/-- `draw_byte(byte, x, y)` over the bit indices given (0 is the most significant), with `x` and `y` unbounded naturals (R113, log 11). -/
def drawBits (wrap : Bool) (byte : Byte) (x y : Nat) : List Nat → Display × Bool → Display × Bool
  | [], acc => acc
  | b :: bs, acc => drawBits wrap byte x y bs (drawBit wrap (byte.getMsbD b) (x + b) y acc)

/-- `draw_byte(byte, x, y) -> collided` on a grid (R113). -/
def drawByte (wrap : Bool) (byte : Byte) (x y : Nat) (d : Display) : Display × Bool :=
  drawBits wrap byte x y [0, 1, 2, 3, 4, 5, 6, 7] (d, false)

/-- The rows of a sprite from row coordinate `y` down, with the OR of their collisions (R117, R118). -/
def drawRows (wrap : Bool) (x y : Nat) : List Byte → Display × Bool → Display × Bool
  | [], acc => acc
  | byte :: rows, acc =>
    let drawn := drawByte wrap byte x y acc.1
    drawRows wrap x (y + 1) rows (drawn.1, drawn.2 || acc.2)

/-- `get_screen()`: a copy of the whole grid (R114). -/
def State.screen (s : State) : Display := s.disp

/-- A pixel of this block's grid. -/
def State.pixel (s : State) (c : Fin 64) (r : Fin 32) : Bool := s.disp.cell c r

/-- 00E0 CLS (R111). -/
def execCls (s : State) : Host.Outcome State Fault Refusal :=
  .next { s with disp := Display.clear }

/-- DXYN DRW Vx, Vy, n (R117 to R119): the coordinates are read first, the whole sprite is read before any pixel changes, `VF` is written last. -/
def execDrw (x y : RegNo) (n : Nibble) (s : State) : Host.Outcome State Fault Refusal :=
  match memRead s s.base n.toNat with
  | .error f => raise f s
  | .ok rows =>
    let drawn := drawRows s.wrap (s.reg x).toNat (s.reg y).toNat rows (s.disp, false)
    .next (({ s with disp := drawn.1 } : State).setReg vf (bool01 drawn.2))

end Sys2Proof.Machine
end

