-- ==== Sys2Proof/Machine/IndexMemory.lean ====
section
/-! DEFINITION. Index register and memory instructions: ANNN, FX1E, FX29, FX33, FX55, FX65 (43_index_memory.md). None of them changes `pc`; none changes `I` as a side effect (R183). -/

namespace Sys2Proof.Machine

/-- ANNN LD I, nnn (R180). -/
def execLdI (nnn : Addr12) (s : State) : Host.Outcome State Fault Refusal :=
  .next { s with i := addrOperand nnn }

/-- FX1E ADD I, Vx (R181): modulo 65536, no flag. -/
def execAddI (x : RegNo) (s : State) : Host.Outcome State Fault Refusal :=
  .next { s with i := s.i + (s.reg x).setWidth 16 }

/-- FX29 LD F, Vx (R182). -/
def execLdF (x : RegNo) (s : State) : Host.Outcome State Fault Refusal :=
  .next { s with i := glyphAddress (s.reg x) }

/-- FX33 LD B, Vx (R185). -/
def execLdB (x : RegNo) (s : State) : Host.Outcome State Fault Refusal :=
  match memWrite s s.base (decimalDigits (s.reg x)) with
  | .ok s' => .next s'
  | .error f => raise f s

/-- FX55 LD [I], Vx (R186). -/
def execStoreRegs (x : RegNo) (s : State) : Host.Outcome State Fault Refusal :=
  match memWrite s s.base (blockOfRegs s x) with
  | .ok s' => .next s'
  | .error f => raise f s

/-- FX65 LD Vx, [I] (R187): no register is written when the read faults. -/
def execLoadRegs (x : RegNo) (s : State) : Host.Outcome State Fault Refusal :=
  match memRead s s.base (blockLength x) with
  | .ok bytes => .next (s.setRegsFrom 0 bytes)
  | .error f => raise f s

end Sys2Proof.Machine
end

