-- ==== Sys2Proof/Machine/KeysTimers.lean ====
section
/-! DEFINITION. Keyboard and timer instructions: EX9E, EXA1, FX07, FX0A, FX15, FX18 (44_keys_timers.md). None of them writes the keyboard state (R207). -/

namespace Sys2Proof.Machine

/-- EX9E SKP Vx (R200). -/
def execSkp (x : RegNo) (s : State) : Host.Outcome State Fault Refusal :=
  match keyOperand s x with
  | .ok k => .next (s.skipIf (s.isDown k))
  | .error f => raise f s

/-- EXA1 SKNP Vx (R201). -/
def execSknp (x : RegNo) (s : State) : Host.Outcome State Fault Refusal :=
  match keyOperand s x with
  | .ok k => .next (s.skipIf (!s.isDown k))
  | .error f => raise f s

/-- FX07 LD Vx, DT (R202). -/
def execLdVxDt (x : RegNo) (s : State) : Host.Outcome State Fault Refusal :=
  .next (s.setReg x s.dt)

/-- FX0A LD Vx, K (R203): with no key just pressed, `pc` goes back to the FX0A itself, a busy wait (R244). The key is not consumed (R207, log 12). -/
def execLdVxK (x : RegNo) (s : State) : Host.Outcome State Fault Refusal :=
  match s.keys.justPressed with
  | some k => .next (s.setReg x (BitVec.ofNat 8 k.val))
  | none => .next s.rewound

/-- FX15 LD DT, Vx (R204). -/
def execLdDtVx (x : RegNo) (s : State) : Host.Outcome State Fault Refusal :=
  .next { s with dt := s.reg x }

/-- FX18 LD ST, Vx (R205). -/
def execLdStVx (x : RegNo) (s : State) : Host.Outcome State Fault Refusal :=
  .next { s with st := s.reg x }

end Sys2Proof.Machine
end

