-- ==== Sys2Proof/Machine/Step.lean ====
section
/-! DEFINITION. One STEP: fetch, decode, execute (R81), with the faults of fetch and decode taken before any instruction runs (R223). -/

namespace Sys2Proof.Machine

/-- `Step()` (R81). A halted block makes no transition (R238, log 1). -/
def step (s : State) : Host.Outcome State Fault Refusal :=
  match s.status with
  | .halted r => .fault (.halted r)
  | .running =>
    match fetch s with
    | .error f => .next (s.halt none f)
    | .ok w =>
      match decode w with
      | .error _ => .next (s.halt (some w) .illegalInstruction)
      | .ok i => exec i s.advance

/-- The word of the host's question, stored at `pc`, in a block that runs (log 16). -/
def State.withFetchWord (s : State) (nbits w : Nat) : State :=
  { s with
    mem := s.mem.writeBytes s.params.fontRom s.pc.toNat (wordBytes (tableWord nbits w))
    status := .running }

end Sys2Proof.Machine
end

