-- ==== Sys2Proof/Machine/Commands.lean ====
section
/-! DEFINITION. The host interface (R235 to R238, R264): each command is one atomic transition, and a run is a sequence of commands (R243). -/

namespace Sys2Proof.Machine

/-- The commands of R235. Construction is not one of them. -/
inductive Command where
  /-- One fetch-decode-execute step (R81). -/
  | step
  /-- Decrement DT and ST (R230). -/
  | tick
  /-- Reset the state (R262). -/
  | reset
  /-- Copy a program to 0x200 (R264). -/
  | load (p : List Byte)
  /-- Replace the keyboard snapshot (R234). -/
  | setKeys (k : Keys)
  /-- Set the display's wrap mode (R241). -/
  | setWrap (b : Bool)
  /-- `get_screen()` (R114). -/
  | readScreen
  /-- `ST != 0` (R233). -/
  | readSound
  /-- `status` (R221). -/
  | readStatus
  deriving DecidableEq, Repr

/-- What a command hands back to the host (R235). -/
inductive Reply where
  /-- A STEP that faulted reports the record. -/
  | faultRecord (r : FaultRecord)
  | screen (d : Display)
  | sound (on : Bool)
  | status (st : Status)
  deriving DecidableEq, Repr

/-- LOAD's copy: `M[0x200 + k] <- p[k]`, and nothing else (R264). -/
def State.loadProgram (s : State) (p : List Byte) : State :=
  { s with mem := s.mem.writeBytes s.params.fontRom Config.progBase p }

/-- A command that a halted block does not accept (R238). -/
def whenRunning (s : State) (o : Host.Outcome State Fault Refusal) : Host.Outcome State Fault Refusal :=
  match s.status with
  | .running => o
  | .halted r => .fault (.halted r)

/-- The transition of a command (R235, R238). -/
def Command.apply (c : Command) (s : State) : Host.Outcome State Fault Refusal :=
  match c with
  | .step => Sys2Proof.Machine.step s
  | .tick => whenRunning s (.next s.tick)
  | .reset => .next s.resetBlock
  | .load p => whenRunning s (if programWellFormed p then .next (s.loadProgram p) else .refused (.loadTooLong p.length))
  | .setKeys k => whenRunning s (.next { s with keys := k })
  | .setWrap b => whenRunning s (.next { s with wrap := b })
  | .readScreen => .next s
  | .readSound => .next s
  | .readStatus => .next s

/-- The record a block was halted with, if it is halted. -/
def State.haltRecord (s : State) : Option FaultRecord :=
  match s.status with
  | .running => none
  | .halted r => some r

/-- The result of a command issued in `s` (R235). -/
def Command.reply (c : Command) (s : State) : Option Reply :=
  match c with
  | .step =>
    match Sys2Proof.Machine.step s with
    | .next t => t.haltRecord.map Reply.faultRecord
    | .fault _ => none
    | .refused _ => none
  | .readScreen => some (.screen s.screen)
  | .readSound => some (.sound s.soundOn)
  | .readStatus => some (.status s.status)
  | .tick => none
  | .reset => none
  | .load _ => none
  | .setKeys _ => none
  | .setWrap _ => none

/-- A run: the commands one at a time, in the order the host issues them (R237, R243). -/
def runCommands : List Command → State → Host.Outcome State Fault Refusal
  | [], s => .next s
  | c :: cs, s =>
    match c.apply s with
    | .next s' => runCommands cs s'
    | .fault f => .fault f
    | .refused r => .refused r

end Sys2Proof.Machine
end

