-- ==== Sys2Proof/Safety.lean ====
section
/-! DEFINITION. The terms claims are stated in: the parts of a state and what a transition leaves unchanged, the invariant, faulting, reachability, and where a sprite lands. -/

namespace Sys2Proof.Machine

/-! ## Frames -/

/-- The parts of a state that can change on their own: every register, every byte of memory, every pixel, and the other fields (R20). -/
inductive Part where
  | reg (k : RegNo)
  | index
  | pc
  | dt
  | st
  | stack
  | byte (a : Nat)
  | pixel (c : Fin 64) (r : Fin 32)
  | wrap
  | keys
  | status
  | params
  | draws
  deriving DecidableEq, Repr

/-- A part is the same in both states; memory and the grid are compared by the model's reads. -/
def Part.same (s t : State) : Part → Prop
  | .reg k => t.reg k = s.reg k
  | .index => t.i = s.i
  | .pc => t.pc = s.pc
  | .dt => t.dt = s.dt
  | .st => t.st = s.st
  | .stack => t.stack = s.stack
  | .byte a => t.byte a = s.byte a
  | .pixel c r => t.pixel c r = s.pixel c r
  | .wrap => t.wrap = s.wrap
  | .keys => t.keys = s.keys
  | .status => t.status = s.status
  | .params => t.params = s.params
  | .draws => t.draws = s.draws

/-- From `s` to `t` nothing has changed but the parts named. -/
def UnchangedExcept (changed : Part → Prop) (s t : State) : Prop :=
  ∀ p, ¬ changed p → p.same s t

/-! ## Encodings -/

/-- Every word of an opcode-map row, `(w AND mask) == value`, decodes to that row's instruction with its fields (R86, R88). -/
def DecodesAs (value mask : Word) (instr : Word → Instr) : Prop :=
  ∀ w, w &&& mask = value → decode w = .ok (instr w)

/-- A running block whose two bytes at `pc` are inside memory and decode to `i`; `w` is the word they make (R56, R81). -/
structure Fetches (s : State) (w : Word) (i : Instr) : Prop where
  running : s.status = .running
  inside : s.pc.toNat + 2 ≤ 4096
  bytes : w.toNat = (s.byte s.pc.toNat).toNat * 256 + (s.byte (s.pc.toNat + 1)).toNat
  decodes : decode w = .ok i

/-! ## Faults -/

/-- The step from `s` raises the fault `cause` with `word` in its record: it commits nothing and the block is halted (R222). -/
def StepFaults (s : State) (word : Option Word) (cause : FaultCause) : Prop :=
  step s = .next { s with status := .halted { addr := s.pc, word := word, cause := cause } }

/-- A safe run goes on: no step so far has raised a fault. -/
def State.Running (s : State) : Prop := s.status = .running

/-- How many bytes an instruction accesses through `I`; `none` for one that accesses none (R51). -/
def accessLength : Instr → Option Nat
  | .drw _ _ n => some n.toNat
  | .ldB _ => some 3
  | .storeRegs x => some (x.toNat + 1)
  | .loadRegs x => some (x.toNat + 1)
  | _ => none

/-- The register an instruction uses as a key index; `none` for one that uses none (R206). -/
def keyRegister : Instr → Option RegNo
  | .skp x => some x
  | .sknp x => some x
  | _ => none

/-! ## Control transfer -/

/-- The condition of a skip instruction in a state; `none` for an instruction that does not skip, and for a key index above 15 (R137, R206). -/
def skipCondition (s : State) : Instr → Option Bool
  | .seImm x nn => some (s.reg x == nn)
  | .sneImm x nn => some (s.reg x != nn)
  | .seReg x y => some (s.reg x == s.reg y)
  | .sneReg x y => some (s.reg x != s.reg y)
  | .skp x => s.keys.down[(s.reg x).toNat]?
  | .sknp x => (s.keys.down[(s.reg x).toNat]?).map (! ·)
  | _ => none

/-- R26's table: what an instruction that completes leaves in `pc`, from the post-fetch state `s`. -/
def pcAfter (s : State) (i : Instr) : Word :=
  match i with
  | .jp nnn => nnn.setWidth 16
  | .call nnn => nnn.setWidth 16
  | .ret => s.stack.getLastD 0
  | .jpV0 nnn => nnn.setWidth 16 + (s.reg 0).setWidth 16
  | .ldVxK _ => if s.keys.justPressed = none then s.pc - 2 else s.pc
  | _ => if skipCondition s i = some true then s.pc + 2 else s.pc

/-! ## The invariant -/

/-- What holds of a block at construction and is kept by every step and every host command. -/
structure State.Inv (s : State) : Prop where
  /-- Memory is in its canonical form, inside 0x000..0xFFF. -/
  memCanonical : s.mem.wf s.params.fontRom
  /-- The largest value `pc` can take is 0x10FE (R27). -/
  pcBound : s.pc.toNat ≤ 0x10FE
  /-- A return address is a post-fetch `pc`, at most 0x1000 (R27, R130). -/
  returnBound : ∀ a ∈ s.stack, a.toNat ≤ 0x1000
  /-- The stack is no longer than STACK_DEPTH (R20). -/
  stackBound : ∀ d, s.params.stackDepth = some d → s.stack.length ≤ d
  /-- A halted block still has the `pc` of the instruction its record names (R221, R222). -/
  haltedAt : ∀ r, s.status = .halted r → r.addr = s.pc

/-- A state some sequence of host commands reaches from construction, for some parameters (R235, R243). -/
def Reachable (s : State) : Prop :=
  ∃ p cs, runCommands cs (State.construct p) = .next s

/-! ## Sprites -/

/-- A candidate column and row land on the cell `(c, r)`: reduced modulo the grid with wrap mode on (R115), the cell itself with it off (R116). -/
def Lands (wrap : Bool) (col row : Nat) (c : Fin 64) (r : Fin 32) : Prop :=
  if wrap then col % 64 = c.val ∧ row % 32 = r.val else col = c.val ∧ row = r.val

/-- Some 1-bit of the `n`-row sprite at `I`, drawn at column `cx` and row `cy`, lands on the cell `(c, r)` (R113, R117). -/
def SpriteCovers (s : State) (cx cy n : Nat) (c : Fin 64) (r : Fin 32) : Prop :=
  ∃ k, k < n ∧ ∃ b, b < 8 ∧
    (s.byte (s.i.toNat + k)).toNat / 2 ^ (7 - b) % 2 = 1 ∧ Lands s.wrap (cx + b) (cy + k) c r

end Sys2Proof.Machine
end

