-- ==== Sys2Proof/Certificates/Slice0/Obligations.lean ====
section
/-! DEFINITION. The statements for the provers. Each docstring names the rule it formalises; "D<n>" is a decision of spec/92_eei_decisions.md, "log <n>" a row of notes/assumptions/. -/

open Sys2Proof Sys2Proof.Machine

/-! ## Encoding -/

/-- R84, R88: the encoder drops no bit. Decoding the word of any instruction gives the instruction back, operands and all.
The word is the model's choice where R84 leaves bits ignored (log 15). -/
def Obligations.DecodeOfEncodeIsIdentity : Prop :=
  ∀ i : Instr, decode (encode i) = .ok i

/-- R84, R87, R90: the other way round. A legal word is its instruction's encoding but for the bits its format ignores. -/
def Obligations.EncodeOfDecodeKeepsReadBits : Prop :=
  ∀ (w : Word) (i : Instr), decode w = .ok i → encode i = w &&& i.readBits

/-- R86, R91: `Decode(w)` returns the one row of the opcode map that covers `w`; no second row does; if none does, the word is illegal. -/
def Obligations.DecodeFollowsOpcodeMap : Prop :=
  ∀ w : Word,
    (∀ i, decode w = .ok i →
      ∃ r ∈ opcodeMap, r.mnemonic = i.mnemonic ∧ r.covers w = true ∧ ∀ r' ∈ opcodeMap, r'.covers w = true → r' = r) ∧
    (∀ e, decode w = .error e → e = .illegalInstruction w ∧ ∀ r ∈ opcodeMap, r.covers w = false)

/-- R89: the illegal words are exactly those of its table. -/
def Obligations.IllegalWordsAreTheTables : Prop :=
  ∀ w : Word, (∃ i, decode w = .ok i) ↔ wordWellFormed w = true

/-- R88, R87, R84: words written out from the opcode map decode to the instructions they stand for, ignored bits included. -/
def Obligations.SampleWordsDecode : Prop :=
  decode 0x05E0 = .ok .cls ∧ decode 0x00EE = .ok .ret ∧ decode 0x1ABC = .ok (.jp 0xABC) ∧
  decode 0x3A10 = .ok (.seImm 0xA 0x10) ∧ decode 0x512F = .ok (.seReg 1 2) ∧ decode 0x81F4 = .ok (.addReg 1 0xF) ∧
  decode 0xD014 = .ok (.drw 0 1 4) ∧ decode 0xE59E = .ok (.skp 5) ∧ decode 0xF265 = .ok (.loadRegs 2) ∧
  decode 0x0123 = .error (.illegalInstruction 0x0123)

/-! ## Display -/

/-- R111, R112: 00E0 clears the whole grid and changes nothing else, `wrap` and `VF` included. -/
def Obligations.ClearScreenResult : Prop :=
  DecodesAs 0x00E0 0xF0FF (fun _ => .cls) ∧
  ∀ s : State, ∃ t, exec .cls s = .next t ∧ (∀ c r, t.pixel c r = false) ∧
    UnchangedExcept (fun p => ∃ c r, p = .pixel c r) s t

/-- R113, R115 to R118: DXYN toggles exactly the cells a 1-bit of the sprite lands on, sets `VF` to 1 if one of them was set and to 0 otherwise, and changes nothing else.
The unbounded coordinates (D9), the OR over rows (D10) and the empty sprite (D11) are the spec's own decisions (log 11). -/
def Obligations.DrawSpriteResult : Prop :=
  DecodesAs 0xD000 0xF000 (fun w => .drw (Word.x w) (Word.y w) (Word.n w)) ∧
  ∀ (x y : RegNo) (n : Nibble) (s : State), s.i.toNat < 4096 → s.i.toNat + n.toNat ≤ 4096 →
    ∃ t, exec (.drw x y n) s = .next t ∧
      (∀ c r, SpriteCovers s (s.reg x).toNat (s.reg y).toNat n.toNat c r → t.pixel c r = !s.pixel c r) ∧
      (∀ c r, ¬ SpriteCovers s (s.reg x).toNat (s.reg y).toNat n.toNat c r → t.pixel c r = s.pixel c r) ∧
      ((∃ c r, SpriteCovers s (s.reg x).toNat (s.reg y).toNat n.toNat c r ∧ s.pixel c r = true) → t.reg 15 = 1) ∧
      ((∀ c r, SpriteCovers s (s.reg x).toNat (s.reg y).toNat n.toNat c r → s.pixel c r = false) → t.reg 15 = 0) ∧
      UnchangedExcept (fun p => p = .reg 15 ∨ ∃ c r, p = .pixel c r) s t

/-- R120, an inference the spec marks as its own: the same DXYN a second time, with `Vx` and `Vy` as before, restores every pixel, and collides exactly when some covered cell was 0 before the first draw. -/
def Obligations.DrawTwiceRestoresScreen : Prop :=
  ∀ (x y : RegNo) (n : Nibble) (s t u : State), s.i.toNat < 4096 → s.i.toNat + n.toNat ≤ 4096 →
    exec (.drw x y n) s = .next t → t.reg x = s.reg x → t.reg y = s.reg y → exec (.drw x y n) t = .next u →
      (∀ c r, u.pixel c r = s.pixel c r) ∧
      (u.reg 15 = 1 ↔ ∃ c r, SpriteCovers s (s.reg x).toNat (s.reg y).toNat n.toNat c r ∧ s.pixel c r = false)

/-! ## Control transfer -/

/-- R131, R139: a jump loads its target unchanged, `nnn` or `nnn + V0`, and changes nothing else; a target of 0xFFF or above faults at the next fetch, not at the jump. What a raised fault leaves is D5's (log 1). -/
def Obligations.JumpResult : Prop :=
  DecodesAs 0x1000 0xF000 (fun w => .jp (Word.nnn w)) ∧ DecodesAs 0xB000 0xF000 (fun w => .jpV0 (Word.nnn w)) ∧
  ∀ (nnn : Addr12) (s : State),
    (∃ t, exec (.jp nnn) s = .next t ∧ t.pc.toNat = nnn.toNat ∧ UnchangedExcept (· = .pc) s t ∧
      (s.status = .running → nnn = 0xFFF → StepFaults t none (.outOfRange 0xFFF 2))) ∧
    (∃ t, exec (.jpV0 nnn) s = .next t ∧ t.pc.toNat = (nnn.toNat + (s.reg 0).toNat) % 65536 ∧ UnchangedExcept (· = .pc) s t ∧
      (s.status = .running → 0xFFF ≤ nnn.toNat + (s.reg 0).toNat → StepFaults t none (.outOfRange (nnn.toNat + (s.reg 0).toNat) 2)))

/-- R132: 2NNN on a stack that is not full pushes the post-fetch `pc` and jumps. `STACK_DEPTH` is the parameter of D14 (log 2). -/
def Obligations.CallResult : Prop :=
  DecodesAs 0x2000 0xF000 (fun w => .call (Word.nnn w)) ∧
  ∀ (nnn : Addr12) (s : State), s.params.stackDepth ≠ some s.stack.length →
    ∃ t, exec (.call nnn) s = .next t ∧ t.stack = s.stack ++ [s.pc] ∧ t.pc.toNat = nnn.toNat ∧
      UnchangedExcept (fun p => p = .pc ∨ p = .stack) s t

/-- R130: 00EE on a stack that is not empty pops its last entry into `pc`. -/
def Obligations.ReturnResult : Prop :=
  DecodesAs 0x00EE 0xF0FF (fun _ => .ret) ∧
  ∀ (rest : List Word) (a : Word) (s : State), s.stack = rest ++ [a] →
    ∃ t, exec .ret s = .next t ∧ t.stack = rest ∧ t.pc = a ∧ UnchangedExcept (fun p => p = .pc ∨ p = .stack) s t

/-- R31, R130, R132: a return right after a call gives back the state before the call, `pc` after it and all. -/
def Obligations.ReturnUndoesCall : Prop :=
  ∀ (nnn : Addr12) (s t : State), s.params.stackDepth ≠ some s.stack.length →
    exec (.call nnn) s = .next t → exec .ret t = .next s

/-- R133, R134: 3XNN skips when `Vx` equals `nn`, 4XNN when it does not; only `pc` changes. -/
def Obligations.SkipOnImmediateResult : Prop :=
  DecodesAs 0x3000 0xF000 (fun w => .seImm (Word.x w) (Word.nn w)) ∧
  DecodesAs 0x4000 0xF000 (fun w => .sneImm (Word.x w) (Word.nn w)) ∧
  ∀ (x : RegNo) (nn : Byte) (s : State),
    (∃ t, exec (.seImm x nn) s = .next t ∧ t.pc = (if s.reg x = nn then s.pc + 2 else s.pc) ∧ UnchangedExcept (· = .pc) s t) ∧
    (∃ t, exec (.sneImm x nn) s = .next t ∧ t.pc = (if s.reg x ≠ nn then s.pc + 2 else s.pc) ∧ UnchangedExcept (· = .pc) s t)

/-- R135, R136: 5XY0 skips when `Vx` equals `Vy`, 9XY0 when it does not; only `pc` changes; bits 3:0 of the word are ignored. -/
def Obligations.SkipOnRegistersResult : Prop :=
  DecodesAs 0x5000 0xF000 (fun w => .seReg (Word.x w) (Word.y w)) ∧
  DecodesAs 0x9000 0xF000 (fun w => .sneReg (Word.x w) (Word.y w)) ∧
  ∀ (x y : RegNo) (s : State),
    (∃ t, exec (.seReg x y) s = .next t ∧ t.pc = (if s.reg x = s.reg y then s.pc + 2 else s.pc) ∧ UnchangedExcept (· = .pc) s t) ∧
    (∃ t, exec (.sneReg x y) s = .next t ∧ t.pc = (if s.reg x ≠ s.reg y then s.pc + 2 else s.pc) ∧ UnchangedExcept (· = .pc) s t)

/-- R137: from the skipping instruction's own address a taken skip moves `pc` by 4 and an untaken one by 2, whatever the skipped word holds; the step itself does not fault, and if it leaves `pc >= 0xFFF` the next fetch does. What a raised fault leaves is D5's (log 1). -/
def Obligations.SkipMovesPcByFourOrTwo : Prop :=
  ∀ (s : State) (w : Word) (i : Instr) (c : Bool), Fetches s w i → skipCondition s i = some c →
    ∃ t, step s = .next t ∧ t.pc.toNat = s.pc.toNat + (if c then 4 else 2) ∧ UnchangedExcept (· = .pc) s t ∧
      (0xFFF ≤ t.pc.toNat → StepFaults t none (.outOfRange t.pc.toNat 2))

/-- R26: where every instruction that completes leaves `pc`: the fetch adds 2, then the table applies. -/
def Obligations.PcFollowsTheTable : Prop :=
  ∀ (s t : State) (w : Word) (i : Instr), Fetches s w i → step s = .next t → t.status = .running →
    t.pc = pcAfter { s with pc := s.pc + 2 } i

/-! ## Registers and arithmetic -/

/-- R151, R152: `Vx` becomes `nn`, or `Vx + nn` modulo 256 with the carry discarded; nothing else changes. -/
def Obligations.ImmediateRegisterResult : Prop :=
  DecodesAs 0x6000 0xF000 (fun w => .ldImm (Word.x w) (Word.nn w)) ∧
  DecodesAs 0x7000 0xF000 (fun w => .addImm (Word.x w) (Word.nn w)) ∧
  ∀ (x : RegNo) (nn : Byte) (s : State),
    (∃ t, exec (.ldImm x nn) s = .next t ∧ t.reg x = nn ∧ UnchangedExcept (· = .reg x) s t) ∧
    (∃ t, exec (.addImm x nn) s = .next t ∧ (t.reg x).toNat = ((s.reg x).toNat + nn.toNat) % 256 ∧
      UnchangedExcept (· = .reg x) s t)

/-- R153 to R156: copy, OR, AND and XOR write `Vx` only; `VF` is not cleared. -/
def Obligations.LogicRegisterResult : Prop :=
  DecodesAs 0x8000 0xF00F (fun w => .ldReg (Word.x w) (Word.y w)) ∧
  DecodesAs 0x8001 0xF00F (fun w => .orReg (Word.x w) (Word.y w)) ∧
  DecodesAs 0x8002 0xF00F (fun w => .andReg (Word.x w) (Word.y w)) ∧
  DecodesAs 0x8003 0xF00F (fun w => .xorReg (Word.x w) (Word.y w)) ∧
  ∀ (x y : RegNo) (s : State),
    (∃ t, exec (.ldReg x y) s = .next t ∧ t.reg x = s.reg y ∧ UnchangedExcept (· = .reg x) s t) ∧
    (∃ t, exec (.orReg x y) s = .next t ∧ t.reg x = (s.reg x ||| s.reg y) ∧ UnchangedExcept (· = .reg x) s t) ∧
    (∃ t, exec (.andReg x y) s = .next t ∧ t.reg x = (s.reg x &&& s.reg y) ∧ UnchangedExcept (· = .reg x) s t) ∧
    (∃ t, exec (.xorReg x y) s = .next t ∧ t.reg x = (s.reg x ^^^ s.reg y) ∧ UnchangedExcept (· = .reg x) s t)

/-- R157: 8XY4 puts the 9-bit sum modulo 256 in `Vx` and its carry in `VF`; with `x = 15` the sum survives (D8, log 10). -/
def Obligations.AddRegistersResult : Prop :=
  DecodesAs 0x8004 0xF00F (fun w => .addReg (Word.x w) (Word.y w)) ∧
  ∀ (x y : RegNo) (s : State), ∃ t, exec (.addReg x y) s = .next t ∧
    (t.reg x).toNat = ((s.reg x).toNat + (s.reg y).toNat) % 256 ∧
    (x ≠ 15 → t.reg 15 = if (s.reg x).toNat + (s.reg y).toNat > 255 then 1 else 0) ∧
    UnchangedExcept (fun p => p = .reg x ∨ p = .reg 15) s t

/-- R158, R160: 8XY5 and 8XY7 write the not-borrow to `VF` first, then subtract modulo 256 with register 15 as an operand read after that write (D8, log 10). -/
def Obligations.SubtractRegistersResult : Prop :=
  DecodesAs 0x8005 0xF00F (fun w => .subReg (Word.x w) (Word.y w)) ∧
  DecodesAs 0x8007 0xF00F (fun w => .subnReg (Word.x w) (Word.y w)) ∧
  ∀ (x y : RegNo) (s : State),
    (∃ t f, f = (if (s.reg x).toNat ≥ (s.reg y).toNat then 1 else 0) ∧ exec (.subReg x y) s = .next t ∧
      ((t.reg x).toNat : Int) =
        (((if x = 15 then f else (s.reg x).toNat) : Int) - ((if y = 15 then f else (s.reg y).toNat) : Int)) % 256 ∧
      (x ≠ 15 → ((t.reg 15).toNat : Int) = f) ∧
      UnchangedExcept (fun p => p = .reg x ∨ p = .reg 15) s t) ∧
    (∃ t f, f = (if (s.reg y).toNat ≥ (s.reg x).toNat then 1 else 0) ∧ exec (.subnReg x y) s = .next t ∧
      ((t.reg x).toNat : Int) =
        (((if y = 15 then f else (s.reg y).toNat) : Int) - ((if x = 15 then f else (s.reg x).toNat) : Int)) % 256 ∧
      (x ≠ 15 → ((t.reg 15).toNat : Int) = f) ∧
      UnchangedExcept (fun p => p = .reg x ∨ p = .reg 15) s t)

/-- R159, R161: 8XY6 and 8XYE write the bit shifted out to `VF` first, then shift `Vx` by one; with `x = 15` the shift reads the new flag (D8, log 10). `y` has no effect. -/
def Obligations.ShiftRegisterResult : Prop :=
  DecodesAs 0x8006 0xF00F (fun w => .shr (Word.x w) (Word.y w)) ∧
  DecodesAs 0x800E 0xF00F (fun w => .shl (Word.x w) (Word.y w)) ∧
  ∀ (x y : RegNo) (s : State),
    (∃ t, exec (.shr x y) s = .next t ∧
      (t.reg x).toNat = (if x = 15 then (s.reg x).toNat % 2 else (s.reg x).toNat) / 2 ∧
      (x ≠ 15 → (t.reg 15).toNat = (s.reg x).toNat % 2) ∧
      UnchangedExcept (fun p => p = .reg x ∨ p = .reg 15) s t) ∧
    (∃ t, exec (.shl x y) s = .next t ∧
      (t.reg x).toNat = 2 * (if x = 15 then (s.reg x).toNat / 128 else (s.reg x).toNat) % 256 ∧
      (x ≠ 15 → (t.reg 15).toNat = (s.reg x).toNat / 128) ∧
      UnchangedExcept (fun p => p = .reg x ∨ p = .reg 15) s t)

/-- R162: CXNN masks one free draw with `nn` and uses that draw up. What the draw is, is a free value (D19, log 4): the statement holds for every value of the model's own counter. -/
def Obligations.RandomResult : Prop :=
  DecodesAs 0xC000 0xF000 (fun w => .rnd (Word.x w) (Word.nn w)) ∧
  ∀ (x : RegNo) (nn : Byte) (s : State), ∃ t, exec (.rnd x nn) s = .next t ∧
    t.reg x = (Config.rng s.draws &&& nn) ∧ t.draws = s.draws + 1 ∧
    UnchangedExcept (fun p => p = .reg x ∨ p = .draws) s t

/-- R22, R24: apart from the six flag writers, `VF` changes only as an explicit destination or in the FX65 block with `x = 15`. -/
def Obligations.FlagRegisterWriters : Prop :=
  ∀ (s t : State) (w : Word) (i : Instr), Fetches s w i → step s = .next t → t.reg 15 ≠ s.reg 15 →
    (∃ x y, i = .addReg x y ∨ i = .subReg x y ∨ i = .shr x y ∨ i = .subnReg x y ∨ i = .shl x y) ∨
    (∃ x y n, i = .drw x y n) ∨ (∃ nn, i = .ldImm 15 nn ∨ i = .addImm 15 nn ∨ i = .rnd 15 nn) ∨
    (∃ y, i = .ldReg 15 y ∨ i = .orReg 15 y ∨ i = .andReg 15 y ∨ i = .xorReg 15 y) ∨
    i = .ldVxDt 15 ∨ i = .ldVxK 15 ∨ i = .loadRegs 15

/-! ## Index register and memory -/

/-- R180 to R182: ANNN, FX1E and FX29 write `I` only, with no flag and no range check. -/
def Obligations.IndexRegisterResult : Prop :=
  DecodesAs 0xA000 0xF000 (fun w => .ldI (Word.nnn w)) ∧ DecodesAs 0xF01E 0xF0FF (fun w => .addI (Word.x w)) ∧
  DecodesAs 0xF029 0xF0FF (fun w => .ldF (Word.x w)) ∧
  ∀ (nnn : Addr12) (x : RegNo) (s : State),
    (∃ t, exec (.ldI nnn) s = .next t ∧ t.i.toNat = nnn.toNat ∧ UnchangedExcept (· = .index) s t) ∧
    (∃ t, exec (.addI x) s = .next t ∧ t.i.toNat = (s.i.toNat + (s.reg x).toNat) % 65536 ∧ UnchangedExcept (· = .index) s t) ∧
    (∃ t, exec (.ldF x) s = .next t ∧ t.i.toNat = (s.reg x).toNat * 5 ∧ UnchangedExcept (· = .index) s t)

/-- R184, R185: FX33 with its three bytes inside memory stores the decimal digits of `Vx` at `I`, `I+1`, `I+2`, and changes nothing else. The range check is D4's (log 8). -/
def Obligations.DecimalStoreResult : Prop :=
  DecodesAs 0xF033 0xF0FF (fun w => .ldB (Word.x w)) ∧
  ∀ (x : RegNo) (s : State), s.i.toNat + 3 ≤ 4096 → ∃ t, exec (.ldB x) s = .next t ∧
    (t.byte s.i.toNat).toNat = (s.reg x).toNat / 100 ∧
    (t.byte (s.i.toNat + 1)).toNat = (s.reg x).toNat / 10 % 10 ∧
    (t.byte (s.i.toNat + 2)).toNat = (s.reg x).toNat % 10 ∧
    UnchangedExcept (fun p => p = .byte s.i.toNat ∨ p = .byte (s.i.toNat + 1) ∨ p = .byte (s.i.toNat + 2)) s t

/-- R183, R186: FX55 with its x+1 bytes inside memory stores `V[k]` at `I + k` for each `k` up to `x`, and changes nothing else, `I` included. The range check is D4's (log 8). -/
def Obligations.BlockStoreResult : Prop :=
  DecodesAs 0xF055 0xF0FF (fun w => .storeRegs (Word.x w)) ∧
  ∀ (x : RegNo) (s : State), s.i.toNat + (x.toNat + 1) ≤ 4096 → ∃ t, exec (.storeRegs x) s = .next t ∧
    (∀ k : RegNo, k.toNat ≤ x.toNat → t.byte (s.i.toNat + k.toNat) = s.reg k) ∧
    UnchangedExcept (fun p => ∃ k, k ≤ x.toNat ∧ p = .byte (s.i.toNat + k)) s t

/-- R183, R187: FX65 with its x+1 bytes inside memory loads `V[k]` from `I + k` for each `k` up to `x`; registers above `Vx`, memory and `I` do not change. The range check is D4's (log 8). -/
def Obligations.BlockLoadResult : Prop :=
  DecodesAs 0xF065 0xF0FF (fun w => .loadRegs (Word.x w)) ∧
  ∀ (x : RegNo) (s : State), s.i.toNat + (x.toNat + 1) ≤ 4096 → ∃ t, exec (.loadRegs x) s = .next t ∧
    (∀ k : RegNo, k.toNat ≤ x.toNat → t.reg k = s.byte (s.i.toNat + k.toNat)) ∧
    UnchangedExcept (fun p => ∃ k : RegNo, k.toNat ≤ x.toNat ∧ p = .reg k) s t

/-- R186, R187: what FX55 stored, FX65 loads back; the pair leaves the registers and memory as FX55 left them. -/
def Obligations.BlockLoadUndoesStore : Prop :=
  ∀ (x : RegNo) (s t : State), s.i.toNat + (x.toNat + 1) ≤ 4096 → exec (.storeRegs x) s = .next t →
    exec (.loadRegs x) t = .next t

/-- R63, R56: fetch sees every earlier store. After FX55 of two registers or more, a fetch at `I` gives the word `V0 V1`, high-order byte first (coherence is D22, log 13). -/
def Obligations.FetchSeesStores : Prop :=
  ∀ (x : RegNo) (s t : State), 1 ≤ x.toNat → s.i.toNat + (x.toNat + 1) ≤ 4096 → exec (.storeRegs x) s = .next t →
    ∃ w, fetch { t with pc := s.i } = .ok w ∧ w.toNat = (s.reg 0).toNat * 256 + (s.reg 1).toNat

/-- R28, R31, R33, R51: in a step, only ANNN, FX1E, FX29 change `I`; only 2NNN, 00EE the stack; only 00E0, DXYN a pixel; only FX33, FX55 a byte of memory, within the bytes they store to. -/
def Obligations.EachPartHasItsWriters : Prop :=
  ∀ (s t : State), step s = .next t →
    (t.i ≠ s.i → ∃ w nnn x, Fetches s w (.ldI nnn) ∨ Fetches s w (.addI x) ∨ Fetches s w (.ldF x)) ∧
    (t.stack ≠ s.stack → ∃ w nnn, Fetches s w (.call nnn) ∨ Fetches s w .ret) ∧
    (∀ c r, t.pixel c r ≠ s.pixel c r → ∃ w x y n, Fetches s w .cls ∨ Fetches s w (.drw x y n)) ∧
    (∀ a, t.byte a ≠ s.byte a → ∃ w x, s.i.toNat ≤ a ∧
      (Fetches s w (.ldB x) ∧ a < s.i.toNat + 3 ∨ Fetches s w (.storeRegs x) ∧ a < s.i.toNat + (x.toNat + 1)))

/-! ## Keyboard and timers -/

/-- R200, R201: with a key index of 0..15 in `Vx`, EX9E skips when that key is down and EXA1 when it is up; only `pc` changes. An index above 15 is D12's fault, stated in KeyIndexAboveFifteenFaults (log 12). -/
def Obligations.KeySkipResult : Prop :=
  DecodesAs 0xE09E 0xF0FF (fun w => .skp (Word.x w)) ∧ DecodesAs 0xE0A1 0xF0FF (fun w => .sknp (Word.x w)) ∧
  ∀ (x : RegNo) (s : State) (k : Fin 16), (s.reg x).toNat = k.val →
    (∃ t, exec (.skp x) s = .next t ∧ t.pc = (if s.keys.down[k] = true then s.pc + 2 else s.pc) ∧
      UnchangedExcept (· = .pc) s t) ∧
    (∃ t, exec (.sknp x) s = .next t ∧ t.pc = (if s.keys.down[k] = false then s.pc + 2 else s.pc) ∧
      UnchangedExcept (· = .pc) s t)

/-- R203: with a key just pressed, FX0A stores its index in `Vx` and goes on, a net `pc + 2`; with none, the whole step leaves the block as it was, `pc` on the FX0A itself, held keys or not. The keyboard does not change (D13, log 12). -/
def Obligations.KeyWaitResult : Prop :=
  DecodesAs 0xF00A 0xF0FF (fun w => .ldVxK (Word.x w)) ∧
  (∀ (x : RegNo) (s : State) (k : Fin 16), s.keys.justPressed = some k →
    ∃ t, exec (.ldVxK x) s = .next t ∧ (t.reg x).toNat = k.val ∧ UnchangedExcept (· = .reg x) s t) ∧
  (∀ (x : RegNo) (s : State) (w : Word), Fetches s w (.ldVxK x) →
    (∀ k : Fin 16, s.keys.justPressed = some k → ∃ t, step s = .next t ∧ t.pc.toNat = s.pc.toNat + 2 ∧ (t.reg x).toNat = k.val) ∧
    (s.keys.justPressed = none → step s = .next s ∧ ∃ u, Command.apply .tick s = .next u))

/-- R202, R204, R205: FX07 reads `DT`; FX15 writes it, the next FX07 reads it back and the next tick counts it down; FX18 writes `ST` and with it the sound output. -/
def Obligations.TimerInstructionResult : Prop :=
  DecodesAs 0xF007 0xF0FF (fun w => .ldVxDt (Word.x w)) ∧ DecodesAs 0xF015 0xF0FF (fun w => .ldDtVx (Word.x w)) ∧
  DecodesAs 0xF018 0xF0FF (fun w => .ldStVx (Word.x w)) ∧
  ∀ (x : RegNo) (s : State),
    (∃ t, exec (.ldVxDt x) s = .next t ∧ t.reg x = s.dt ∧ UnchangedExcept (· = .reg x) s t) ∧
    (∃ t, exec (.ldDtVx x) s = .next t ∧ t.dt = s.reg x ∧ UnchangedExcept (· = .dt) s t ∧
      t.tick.dt.toNat = (s.reg x).toNat - 1 ∧ ∀ z, ∃ u, exec (.ldVxDt z) t = .next u ∧ u.reg z = s.reg x) ∧
    (∃ t, exec (.ldStVx x) s = .next t ∧ t.st = s.reg x ∧ UnchangedExcept (· = .st) s t ∧
      (t.soundOn = true ↔ s.reg x ≠ 0))

/-- R230, R231: TICK on a running block counts each timer down by one and stops it at 0, and changes nothing else; a halted block does not tick. -/
def Obligations.TickResult : Prop :=
  ∀ s : State,
    (s.status = .running → ∃ t, Command.apply .tick s = .next t ∧ t.dt.toNat = s.dt.toNat - 1 ∧ t.st.toNat = s.st.toNat - 1 ∧
      UnchangedExcept (fun p => p = .dt ∨ p = .st) s t) ∧
    (s.status ≠ .running → ∀ t, Command.apply .tick s ≠ .next t)

/-- R269: a STEP never changes `DT` or `ST` except through FX15 and FX18. -/
def Obligations.StepNeverTicks : Prop :=
  ∀ (s t : State), step s = .next t →
    (t.dt ≠ s.dt → ∃ w x, Fetches s w (.ldDtVx x)) ∧ (t.st ≠ s.st → ∃ w x, Fetches s w (.ldStVx x))

/-- R34, R35, R207, R7: no step changes the wrap mode, the keyboard or the parameters; they are the host's and the block's. -/
def Obligations.StepKeepsHostOwnedState : Prop :=
  ∀ (s t : State), step s = .next t → t.wrap = s.wrap ∧ t.keys = s.keys ∧ t.params = s.params

/-- R30, R35, R34: no instruction reads `ST`; only EX9E, EXA1 and FX0A read the keyboard; only DXYN reads the wrap mode.
Changing such a part before an instruction that does not read it changes no other part after it. -/
def Obligations.UnreadPartsHaveNoInfluence : Prop :=
  ∀ (i : Instr) (s t : State), exec i s = .next t →
    (∀ st' : Byte, ∃ u, exec i { s with st := st' } = .next u ∧ UnchangedExcept (· = .st) t u) ∧
    (∀ k : Keys, (∀ x, i ≠ .skp x ∧ i ≠ .sknp x ∧ i ≠ .ldVxK x) →
      ∃ u, exec i { s with keys := k } = .next u ∧ UnchangedExcept (· = .keys) t u) ∧
    (∀ b : Bool, (∀ x y n, i ≠ .drw x y n) →
      ∃ u, exec i { s with wrap := b } = .next u ∧ UnchangedExcept (· = .wrap) t u)

/-! ## The step and its faults -/

/-- R81, R82: when the two bytes at `pc` make a word that decodes to `i`, a step of a running block is `i` executed with `pc` two further on. -/
def Obligations.StepRunsDecodedInstruction : Prop :=
  ∀ (s : State) (w : Word) (i : Instr), Fetches s w i → step s = exec i { s with pc := s.pc + 2 }

/-- R237, R81: every STEP of a running block returns; the model refuses no instruction and stops on none. -/
def Obligations.StepAlwaysReturns : Prop :=
  ∀ s : State, s.status = .running → ∃ t, step s = .next t

/-- R55, R89, R223: a step whose two bytes are not inside memory raises `OutOfRange(pc, 2)` with no word; one whose word is illegal raises `IllegalInstruction` with it. Taking a fault is D5's (log 1). -/
def Obligations.FetchAndDecodeFaults : Prop :=
  ∀ s : State, s.status = .running →
    (0xFFF ≤ s.pc.toNat → StepFaults s none (.outOfRange s.pc.toNat 2)) ∧
    (s.pc.toNat + 2 ≤ 4096 → ∀ w : Word, w.toNat = (s.byte s.pc.toNat).toNat * 256 + (s.byte (s.pc.toNat + 1)).toNat →
      wordWellFormed w = false → StepFaults s (some w) .illegalInstruction)

/-- R130, R132: 00EE on an empty stack raises `StackUnderflow`, 2NNN on a full one of finite depth `StackOverflow` (D14, D5; log 1, log 2). -/
def Obligations.StackFaults : Prop :=
  ∀ (s : State) (w : Word),
    (Fetches s w .ret → s.stack = [] → StepFaults s (some w) .stackUnderflow) ∧
    (∀ nnn, Fetches s w (.call nnn) → s.params.stackDepth = some s.stack.length → StepFaults s (some w) .stackOverflow)

/-- R54, R117, R185 to R187: an access through `I` whose span is not inside memory raises `OutOfRange(I, len)` before any byte moves; for DXYN also with `n = 0` (D4, D11, D5; log 1, log 8). -/
def Obligations.AccessOutOfRangeFaults : Prop :=
  ∀ (s : State) (w : Word) (i : Instr) (len : Nat), Fetches s w i → accessLength i = some len →
    (4096 ≤ s.i.toNat ∨ 4096 < s.i.toNat + len) → StepFaults s (some w) (.outOfRange s.i.toNat len)

/-- R206: EX9E and EXA1 with `V[x] > 15` raise `KeyIndexOutOfRange(V[x])` (D12, D5; log 1, log 12). -/
def Obligations.KeyIndexAboveFifteenFaults : Prop :=
  ∀ (s : State) (w : Word) (i : Instr) (x : RegNo), Fetches s w i → keyRegister i = some x →
    15 < (s.reg x).toNat → StepFaults s (some w) (.keyIndexOutOfRange (s.reg x))

/-- R222, R224: a step that leaves the block halted has changed `status` and nothing else, and its record names the instruction's address and the word there (D5, D6; log 1, log 9). -/
def Obligations.FaultsAreAtomicAndPrecise : Prop :=
  ∀ (s t : State), step s = .next t → t.status ≠ .running →
    ∃ r, t = { s with status := .halted r } ∧ r.addr = s.pc ∧
      (r.word = none ↔ 0xFFF ≤ s.pc.toNat) ∧
      (∀ w, r.word = some w → w.toNat = (s.byte s.pc.toNat).toNat * 256 + (s.byte (s.pc.toNat + 1)).toNat)

/-- R220: no step raises a fault without its cause, and no other instruction raises one. The codes are D6's (log 9). -/
def Obligations.EveryFaultHasItsCause : Prop :=
  ∀ (s t : State) (r : FaultRecord), step s = .next t → t.status = .halted r →
    (r.code = 1 → ∃ w, r.word = some w ∧ wordWellFormed w = false) ∧
    (r.code = 2 → s.stack = [] ∧ ∃ w, Fetches s w .ret) ∧
    (r.code = 3 → 0xFFF ≤ s.pc.toNat ∨
      ∃ w i len, Fetches s w i ∧ accessLength i = some len ∧ (4096 ≤ s.i.toNat ∨ 4096 < s.i.toNat + len)) ∧
    (r.code = 4 → s.params.stackDepth = some s.stack.length ∧ ∃ w nnn, Fetches s w (.call nnn)) ∧
    (r.code = 5 → ∃ w i x, Fetches s w i ∧ keyRegister i = some x ∧ 15 < (s.reg x).toNat) ∧
    1 ≤ r.code ∧ r.code ≤ 5

/-! ## The host interface -/

/-- R238, R226: a halted block accepts only RESET and the reads; STEP, TICK, LOAD, SET_KEYS and SET_WRAP have no transition (D24; the outcome `fault (halted r)` is the model's choice, log 1). RESET makes it run again. -/
def Obligations.HaltedBlockAcceptsOnlyResetAndReads : Prop :=
  ∀ (s : State) (r : FaultRecord), s.status = .halted r →
    step s = .fault (.halted r) ∧
    (∀ c, c = .step ∨ c = .tick ∨ (∃ p, c = .load p) ∨ (∃ k, c = .setKeys k) ∨ (∃ b, c = .setWrap b) →
      Command.apply c s = .fault (.halted r)) ∧
    (∀ c, c = .readScreen ∨ c = .readSound ∨ c = .readStatus → Command.apply c s = .next s) ∧
    (∃ t, Command.apply .reset s = .next t ∧ t.status = .running)

/-- R114, R233, R235: the reads change nothing and report the grid, the sound output and the status; a STEP that faults reports its record. -/
def Obligations.ReadsReport : Prop :=
  ∀ s : State,
    Command.apply .readScreen s = .next s ∧ Command.apply .readSound s = .next s ∧ Command.apply .readStatus s = .next s ∧
    (∃ d, Command.reply .readScreen s = some (.screen d) ∧ ∀ (c : Fin 64) (r : Fin 32), d[c][r] = s.pixel c r) ∧
    Command.reply .readSound s = some (.sound (decide (s.st ≠ 0))) ∧
    Command.reply .readStatus s = some (.status s.status) ∧
    (∀ w f, StepFaults s w f → Command.reply .step s = some (.faultRecord { addr := s.pc, word := w, cause := f }))

/-- R234, R241: SET_KEYS replaces the whole keyboard snapshot and SET_WRAP the wrap mode of a running block; nothing else changes. -/
def Obligations.HostSettingsResult : Prop :=
  ∀ (s : State) (k : Keys) (b : Bool), s.status = .running →
    (∃ t, Command.apply (.setKeys k) s = .next t ∧ t.keys = k ∧ UnchangedExcept (· = .keys) s t) ∧
    (∃ t, Command.apply (.setWrap b) s = .next t ∧ t.wrap = b ∧ UnchangedExcept (· = .wrap) s t)

/-- R262, R39: RESET in any state gives the values of R39; `wrap` and `keys` keep theirs (D15), memory is the construction image (D17) (log 5, log 13). -/
def Obligations.ResetResult : Prop :=
  ∀ s : State, ∃ t, Command.apply .reset s = .next t ∧
    (∀ k, t.reg k = 0) ∧ t.i = 0 ∧ t.pc = 0x200 ∧ t.dt = 0 ∧ t.st = 0 ∧ t.stack = [] ∧
    (∀ a, (h : a < 80) → t.byte a = s.params.fontRom[a]) ∧ (∀ a, 80 ≤ a → t.byte a = 0) ∧
    (∀ c r, t.pixel c r = false) ∧ t.status = .running ∧ t.wrap = s.wrap ∧ t.keys = s.keys ∧ t.params = s.params

/-- R264: LOAD of at most 3584 bytes into a running block copies them to 0x200 and changes no other state; a longer one is refused (D18, log 14). -/
def Obligations.LoadResult : Prop :=
  ∀ (s : State) (p : List Byte), s.status = .running →
    (p.length ≤ 3584 → ∃ t, Command.apply (.load p) s = .next t ∧
      (∀ k, (h : k < p.length) → t.byte (0x200 + k) = p[k]) ∧
      UnchangedExcept (fun q => ∃ k, k < p.length ∧ q = .byte (0x200 + k)) s t) ∧
    (3584 < p.length → Command.apply (.load p) s = .refused (.loadTooLong p.length))

/-- R266: RESET then LOAD equals construction then LOAD in everything but what the host set, `wrap` and `keys` (and the model's own count of draws, log 4). -/
def Obligations.ResetThenLoadIsConstructionThenLoad : Prop :=
  ∀ (s : State) (p : List Byte), p.length ≤ 3584 →
    ∃ t u, runCommands [.reset, .load p] s = .next t ∧ runCommands [.load p] (State.construct s.params) = .next u ∧
      t = { u with wrap := s.wrap, keys := s.keys, draws := s.draws } ∧
      u.wrap = false ∧ u.keys.justPressed = none ∧ ∀ k : Fin 16, u.keys.down[k] = false

/-- R260, R263: with no program loaded, the first step after construction or RESET raises `IllegalInstruction(0x0000)` at 0x200. -/
def Obligations.NoProgramFaultsAtOnce : Prop :=
  (∀ p : Params, StepFaults (State.construct p) (some 0x0000) .illegalInstruction) ∧
  (∀ s : State, StepFaults s.resetBlock (some 0x0000) .illegalInstruction) ∧
  (∀ p : Params, (State.construct p).pc = 0x200 ∧ (State.construct p).status = .running) ∧
  (∀ s : State, s.resetBlock.pc = 0x200 ∧ s.resetBlock.status = .running)

/-! ## The invariant -/

/-- R20, R27, R54, R222: every step keeps the invariant: memory canonical and inside 0x000..0xFFF, `pc` at most 0x10FE, return addresses at most 0x1000, the stack within STACK_DEPTH, a halted block on its faulting instruction. -/
def Obligations.StepKeepsInvariant : Prop :=
  ∀ s t : State, s.Inv → step s = .next t → t.Inv

/-- R260: construction meets the invariant, for all parameters; `State.reset` is one case. -/
def Obligations.ConstructionMeetsInvariant : Prop :=
  (∀ p : Params, (State.construct p).Inv) ∧ State.reset.Inv

/-- R235, R237: every host command keeps the invariant. -/
def Obligations.CommandKeepsInvariant : Prop :=
  ∀ (c : Command) (s t : State), s.Inv → Command.apply c s = .next t → t.Inv

/-- R243: every state that any sequence of host commands reaches from construction meets the invariant. -/
def Obligations.ReachableStatesMeetInvariant : Prop :=
  ∀ s : State, Reachable s → s.Inv
end

