-- ==== Sys2Proof/Laws/Decode.lean ====
section
/-! SUPPORT. The fields of an encoded word, for each of the three shapes the encoder writes (R83, R84). -/

namespace Sys2Proof

/-! ## Format A -/

@[simp] theorem family_encodeA (f : Nibble) (nnn : Addr12) : Word.family (encodeA f nnn) = f := by
  ext i hi
  simp only [Word.family, encodeA, BitVec.getElem_extractLsb', BitVec.getLsbD_append]
  simp [hi]

@[simp] theorem nnn_encodeA (f : Nibble) (nnn : Addr12) : Word.nnn (encodeA f nnn) = nnn := by
  ext i hi
  simp only [Word.nnn, encodeA, BitVec.getElem_extractLsb', BitVec.getLsbD_append]
  simp [hi]

/-! ## Formats XK and XS -/

@[simp] theorem family_encodeXK (f : Nibble) (x : RegNo) (nn : Byte) : Word.family (encodeXK f x nn) = f := by
  ext i hi
  simp only [Word.family, encodeXK, BitVec.getElem_extractLsb', BitVec.getLsbD_append]
  simp [hi, show ¬ (12 + i < 8) by omega, show ¬ (12 + i - 8 < 4) by omega, show 12 + i - 8 - 4 = i by omega]

@[simp] theorem x_encodeXK (f : Nibble) (x : RegNo) (nn : Byte) : Word.x (encodeXK f x nn) = x := by
  ext i hi
  simp only [Word.x, encodeXK, BitVec.getElem_extractLsb', BitVec.getLsbD_append]
  simp [hi]

@[simp] theorem nn_encodeXK (f : Nibble) (x : RegNo) (nn : Byte) : Word.nn (encodeXK f x nn) = nn := by
  ext i hi
  simp only [Word.nn, encodeXK, BitVec.getElem_extractLsb', BitVec.getLsbD_append]
  simp [hi]

/-! ## Formats XY, XYS and XYN -/

@[simp] theorem family_encodeXYN (f : Nibble) (x y : RegNo) (n : Nibble) : Word.family (encodeXYN f x y n) = f := by
  ext i hi
  simp only [Word.family, encodeXYN, BitVec.getElem_extractLsb', BitVec.getLsbD_append]
  simp [hi, show ¬ (12 + i < 8) by omega, show ¬ (12 + i - 8 < 4) by omega, show 12 + i - 8 - 4 = i by omega]

@[simp] theorem x_encodeXYN (f : Nibble) (x y : RegNo) (n : Nibble) : Word.x (encodeXYN f x y n) = x := by
  ext i hi
  simp only [Word.x, encodeXYN, BitVec.getElem_extractLsb', BitVec.getLsbD_append]
  simp [hi]

@[simp] theorem y_encodeXYN (f : Nibble) (x y : RegNo) (n : Nibble) : Word.y (encodeXYN f x y n) = y := by
  ext i hi
  simp only [Word.y, encodeXYN, BitVec.getElem_extractLsb', BitVec.getLsbD_append]
  simp [hi, show 4 + i < 8 by omega]

@[simp] theorem n_encodeXYN (f : Nibble) (x y : RegNo) (n : Nibble) : Word.n (encodeXYN f x y n) = n := by
  ext i hi
  simp only [Word.n, encodeXYN, BitVec.getElem_extractLsb', BitVec.getLsbD_append]
  simp [hi, show i < 8 by omega]

/-! ## The masks of the opcode map -/

theorem encodeA_family_mask (f : Nibble) (nnn : Addr12) : encodeA f nnn &&& 0xF000#16 = encodeA f 0 := by
  apply BitVec.eq_of_getLsbD_eq
  intro i hi
  simp only [encodeA, BitVec.getLsbD_and, BitVec.getLsbD_append]
  interval_cases i <;> simp

theorem encodeXK_family_mask (f : Nibble) (x : RegNo) (nn : Byte) : encodeXK f x nn &&& 0xF000#16 = encodeXK f 0 0 := by
  apply BitVec.eq_of_getLsbD_eq
  intro i hi
  simp only [encodeXK, BitVec.getLsbD_and, BitVec.getLsbD_append]
  interval_cases i <;> simp

theorem encodeXK_subKey_mask (f : Nibble) (x : RegNo) (nn : Byte) : encodeXK f x nn &&& 0xF0FF#16 = encodeXK f 0 nn := by
  apply BitVec.eq_of_getLsbD_eq
  intro i hi
  simp only [encodeXK, BitVec.getLsbD_and, BitVec.getLsbD_append]
  interval_cases i <;> simp

theorem encodeXYN_family_mask (f : Nibble) (x y : RegNo) (n : Nibble) : encodeXYN f x y n &&& 0xF000#16 = encodeXYN f 0 0 0 := by
  apply BitVec.eq_of_getLsbD_eq
  intro i hi
  simp only [encodeXYN, BitVec.getLsbD_and, BitVec.getLsbD_append]
  interval_cases i <;> simp

theorem encodeXYN_subKey_mask (f : Nibble) (x y : RegNo) (n : Nibble) : encodeXYN f x y n &&& 0xF00F#16 = encodeXYN f 0 0 n := by
  apply BitVec.eq_of_getLsbD_eq
  intro i hi
  simp only [encodeXYN, BitVec.getLsbD_and, BitVec.getLsbD_append]
  interval_cases i <;> simp

/-- What a row's `(w AND mask) == value` says of the fields: mask 0xF000 fixes the family. -/
theorem family_of_mask {w v : Word} (h : w &&& 0xF000#16 = v) : Word.family w = Word.family v := by
  rw [← h, Word.family, Word.family, BitVec.extractLsb'_and]
  exact (BitVec.and_allOnes (w := 4)).symm

/-- Mask 0xF00F fixes the family and `n`. -/
theorem family_n_of_mask {w v : Word} (h : w &&& 0xF00F#16 = v) : Word.family w = Word.family v ∧ Word.n w = Word.n v := by
  rw [← h, Word.family, Word.family, Word.n, Word.n, BitVec.extractLsb'_and, BitVec.extractLsb'_and]
  exact ⟨(BitVec.and_allOnes (w := 4)).symm, (BitVec.and_allOnes (w := 4)).symm⟩

/-- Mask 0xF0FF fixes the family and `nn`. -/
theorem family_nn_of_mask {w v : Word} (h : w &&& 0xF0FF#16 = v) : Word.family w = Word.family v ∧ Word.nn w = Word.nn v := by
  rw [← h, Word.family, Word.family, Word.nn, Word.nn, BitVec.extractLsb'_and, BitVec.extractLsb'_and]
  exact ⟨(BitVec.and_allOnes (w := 4)).symm, (BitVec.and_allOnes (w := 8)).symm⟩

/-! ## Words and bytes -/

/-- A word laid out in memory and read back big-endian is the word (R56). -/
@[simp] theorem wordOfBytes_wordBytes (w : Word) : wordOfBytes (w.extractLsb' 8 8) (w.extractLsb' 0 8) = w := by
  apply BitVec.eq_of_getLsbD_eq
  intro i hi
  simp only [wordOfBytes, BitVec.getLsbD_append, BitVec.getLsbD_extractLsb']
  by_cases h : i < 8
  · simp [h]
  · simp [h, show i - 8 < 8 by omega, show 8 + (i - 8) = i by omega]

/-- The word's value: the first byte is the high-order one (R56). -/
theorem toNat_wordOfBytes (hi lo : Byte) : (wordOfBytes hi lo).toNat = hi.toNat * 256 + lo.toNat := by
  rw [wordOfBytes, BitVec.toNat_append, Nat.shiftLeft_eq, Nat.mul_comm, ← Nat.two_pow_add_eq_or_of_lt lo.isLt]

end Sys2Proof
end

