-- ==== Sys2Proof/Laws/Memory.lean ====
section
/-! SUPPORT. The laws of memory: read after write, frames, and that every write keeps the canonical form. -/

namespace Sys2Proof.Machine

/-! ## One byte -/

@[simp] theorem Memory.read_nil (font : Vector Byte 80) (a : Nat) : Memory.read font [] a = unlisted font a := rfl

theorem Memory.read_cons (font : Vector Byte 80) (c : Host.Cell) (m : Memory) (a : Nat) :
    Memory.read font (c :: m) a = if a = c.1 then c.2 else m.read font a := rfl

@[simp] theorem Memory.erase_nil (a : Nat) : Memory.erase [] a = [] := rfl

theorem Memory.erase_cons (c : Host.Cell) (m : Memory) (a : Nat) :
    Memory.erase (c :: m) a = if c.1 = a then m.erase a else c :: m.erase a := by
  by_cases h : c.1 = a <;> simp [Memory.erase, h]

theorem Memory.read_erase_same (font : Vector Byte 80) (m : Memory) (a : Nat) :
    (m.erase a).read font a = unlisted font a := by
  induction m with
  | nil => rfl
  | cons c m ih =>
    rw [erase_cons]
    split
    · exact ih
    · next h => rw [read_cons, if_neg (fun e => h e.symm), ih]

theorem Memory.read_erase_other (font : Vector Byte 80) (m : Memory) {a b : Nat} (h : b ≠ a) :
    (m.erase a).read font b = m.read font b := by
  induction m with
  | nil => rfl
  | cons c m ih =>
    rw [erase_cons, read_cons]
    split
    · next hc => rw [ih, if_neg (fun e => h (e.trans hc))]
    · rw [read_cons, ih]

theorem Memory.mem_erase {m : Memory} {a : Nat} {c : Host.Cell} : c ∈ m.erase a ↔ c ∈ m ∧ c.1 ≠ a := by
  simp [Memory.erase]

theorem Memory.read_insert (font : Vector Byte 80) (m : Memory) (a b : Nat) (w : Byte) (hm : ∀ c ∈ m, c.1 ≠ a) :
    (m.insert a w).read font b = if b = a then w else m.read font b := by
  induction m with
  | nil => rfl
  | cons c m ih =>
    have ih := ih (fun d hd => hm d (List.mem_cons_of_mem _ hd))
    have hc : c.1 ≠ a := hm c List.mem_cons_self
    rw [insert]
    split
    · rfl
    · rw [read_cons, ih, read_cons]
      by_cases hb : b = c.1
      · rw [if_pos hb, if_pos hb, if_neg (fun e => hc (hb.symm.trans e))]
      · rw [if_neg hb, if_neg hb]

/-- A read of any address after a one-byte write. -/
theorem Memory.read_write (font : Vector Byte 80) (m : Memory) (a b : Nat) (w : Byte) :
    (m.write font a w).read font b = if b = a then w else m.read font b := by
  unfold write
  split
  · next hw =>
    by_cases hb : b = a
    · rw [if_pos hb, hb, read_erase_same, hw]
    · rw [if_neg hb, read_erase_other _ _ hb]
  · rw [read_insert _ _ _ _ _ (fun c hc => (mem_erase.1 hc).2)]
    by_cases hb : b = a
    · rw [if_pos hb, if_pos hb]
    · rw [if_neg hb, if_neg hb, read_erase_other _ _ hb]

@[simp] theorem Memory.read_write_same (font : Vector Byte 80) (m : Memory) (a : Nat) (w : Byte) :
    (m.write font a w).read font a = w := by
  rw [read_write, if_pos rfl]

/-! ## The canonical form -/

theorem Memory.mem_insert {m : Memory} {a : Nat} {w : Byte} {c : Host.Cell} :
    c ∈ m.insert a w ↔ c = (a, w) ∨ c ∈ m := by
  induction m with
  | nil => simp [insert]
  | cons d m ih =>
    rw [insert]
    split
    · simp
    · simp only [List.mem_cons, ih]
      constructor
      · rintro (h | h | h) <;> simp [h]
      · rintro (h | h | h) <;> simp [h]

theorem Memory.erase_wf {font : Vector Byte 80} {m : Memory} (h : m.wf font) (a : Nat) : (m.erase a).wf font :=
  ⟨h.1.filter _, fun c hc => h.2 c (mem_erase.1 hc).1⟩

theorem Memory.insert_pairwise {m : Memory} {a : Nat} {w : Byte}
    (h : m.Pairwise (fun c d => c.1 < d.1)) (hm : ∀ c ∈ m, c.1 ≠ a) :
    (m.insert a w).Pairwise (fun c d => c.1 < d.1) := by
  induction m with
  | nil => simp [insert]
  | cons c m ih =>
    have hc := List.pairwise_cons.1 h
    have hca : c.1 ≠ a := hm c List.mem_cons_self
    rw [insert]
    split
    · next hlt =>
      refine List.pairwise_cons.2 ⟨fun d hd => ?_, h⟩
      rcases List.mem_cons.1 hd with rfl | hd
      · exact hlt
      · exact lt_trans hlt (hc.1 d hd)
    · next hlt =>
      refine List.pairwise_cons.2 ⟨fun d hd => ?_, ih hc.2 (fun d hd => hm d (List.mem_cons_of_mem _ hd))⟩
      rcases mem_insert.1 hd with rfl | hd
      · exact lt_of_le_of_ne (not_lt.1 hlt) hca
      · exact hc.1 d hd

/-- A write inside memory keeps the canonical form. -/
theorem Memory.write_wf {font : Vector Byte 80} {m : Memory} (h : m.wf font) {a : Nat} (ha : a < Config.memSize) (w : Byte) :
    (m.write font a w).wf font := by
  unfold write
  split
  · exact erase_wf h a
  · next hw =>
    have he := erase_wf h a
    refine ⟨insert_pairwise he.1 (fun c hc => (mem_erase.1 hc).2), fun c hc => ?_⟩
    rcases mem_insert.1 hc with rfl | hc
    · exact ⟨ha, hw⟩
    · exact he.2 c hc

/-- A write of several bytes inside memory keeps the canonical form. -/
theorem Memory.writeBytes_wf {font : Vector Byte 80} {m : Memory} (h : m.wf font) {a : Nat} {ws : List Byte}
    (ha : a + ws.length ≤ Config.memSize) : (m.writeBytes font a ws).wf font := by
  induction ws generalizing m a with
  | nil => exact h
  | cons w ws ih =>
    rw [List.length_cons] at ha
    exact ih (write_wf h (by omega) w) (by omega)

/-- The construction image lists nothing and is canonical. -/
theorem Memory.nil_wf (font : Vector Byte 80) : Memory.wf font [] := ⟨List.Pairwise.nil, by simp⟩

/-- Two canonical memories that read the same at every address are equal data. -/
theorem Memory.ext_of_wf {font : Vector Byte 80} {m m' : Memory} (h : m.wf font) (h' : m'.wf font)
    (hr : ∀ a, m.read font a = m'.read font a) : m = m' := by
  induction m generalizing m' with
  | nil =>
    cases m' with
    | nil => rfl
    | cons c m' =>
      have := hr c.1
      rw [read_cons, if_pos rfl, read_nil] at this
      exact absurd this.symm (h'.2 c List.mem_cons_self).2
  | cons c m ih =>
    have tail_wf {d : Host.Cell} {l : Memory} (hw : Memory.wf font (d :: l)) : l.wf font :=
      ⟨(List.pairwise_cons.1 hw.1).2, fun e he => hw.2 e (List.mem_cons_of_mem _ he)⟩
    have below {l : Memory} {a : Nat} (hl : ∀ e ∈ l, a < e.1) : l.read font a = unlisted font a := by
      induction l with
      | nil => rfl
      | cons e l ihl =>
        rw [read_cons, if_neg (Nat.ne_of_lt (hl e List.mem_cons_self)), ihl (fun f hf => hl f (List.mem_cons_of_mem _ hf))]
    cases m' with
    | nil =>
      have := hr c.1
      rw [read_cons, if_pos rfl, read_nil] at this
      exact absurd this (h.2 c List.mem_cons_self).2
    | cons d m' =>
      have hm := (List.pairwise_cons.1 h.1).1
      have hm' := (List.pairwise_cons.1 h'.1).1
      have hkey : c.1 = d.1 := by
        rcases Nat.lt_trichotomy c.1 d.1 with hlt | heq | hgt
        · have := hr c.1
          rw [read_cons, if_pos rfl, read_cons, if_neg (Nat.ne_of_lt hlt), below (fun e he => hlt.trans (hm' e he))] at this
          exact absurd this (h.2 c List.mem_cons_self).2
        · exact heq
        · have := hr d.1
          rw [read_cons, if_neg (Nat.ne_of_lt hgt), read_cons, if_pos rfl, below (fun e he => hgt.trans (hm e he))] at this
          exact absurd this.symm (h'.2 d List.mem_cons_self).2
      have hval : c.2 = d.2 := by
        have := hr c.1
        rwa [read_cons, if_pos rfl, read_cons, if_pos hkey] at this
      have hcd : c = d := Prod.ext hkey hval
      subst hcd
      refine congrArg (c :: ·) (ih (tail_wf h) (tail_wf h') (fun a => ?_))
      by_cases ha : a = c.1
      · rw [ha, below (fun e he => hm e he), below (fun e he => hm' e he)]
      · have := hr a
        rwa [read_cons, if_neg ha, read_cons, if_neg ha] at this

/-! ## Several bytes -/

@[simp] theorem Memory.readBytes_length (font : Vector Byte 80) (m : Memory) (a n : Nat) :
    (m.readBytes font a n).length = n := by
  induction n generalizing a with
  | zero => rfl
  | succ n ih => simp [readBytes, ih]

theorem Memory.readBytes_getElem (font : Vector Byte 80) (m : Memory) (a n k : Nat) (h : k < (m.readBytes font a n).length) :
    (m.readBytes font a n)[k] = m.read font (a + k) := by
  induction n generalizing a k with
  | zero => simp [readBytes] at h
  | succ n ih =>
    cases k with
    | zero => rfl
    | succ k =>
      simp only [readBytes, List.getElem_cons_succ]
      rw [ih, Nat.add_right_comm, Nat.add_assoc]

theorem Memory.read_writeBytes_outside (font : Vector Byte 80) (m : Memory) (a b : Nat) (ws : List Byte)
    (h : b < a ∨ a + ws.length ≤ b) : (m.writeBytes font a ws).read font b = m.read font b := by
  induction ws generalizing m a with
  | nil => rfl
  | cons w ws ih =>
    rw [List.length_cons] at h
    rw [writeBytes, ih _ _ (by omega), read_write, if_neg (by omega)]

theorem Memory.read_writeBytes_inside (font : Vector Byte 80) (m : Memory) (a k : Nat) (ws : List Byte) (h : k < ws.length) :
    (m.writeBytes font a ws).read font (a + k) = ws[k] := by
  induction ws generalizing m a k with
  | nil => simp at h
  | cons w ws ih =>
    rw [writeBytes]
    cases k with
    | zero => rw [Nat.add_zero, read_writeBytes_outside _ _ _ _ _ (by omega)]; simp
    | succ k =>
      have hk : k < ws.length := by simpa using h
      rw [List.getElem_cons_succ, show a + (k + 1) = (a + 1) + k by omega]
      exact ih _ _ _ hk

end Sys2Proof.Machine
end

