-- ==== Sys2Proof/Laws/State.lean ====
section
/-! SUPPORT. One lemma per field per update of `State`, so that no later proof unfolds a record update. -/

namespace Sys2Proof.Machine

variable (s : State)

/-! ## `State.setReg` -/

@[simp] theorem State.setReg_v (k : RegNo) (b : Byte) : (s.setReg k b).v = s.v.set k.toNat b k.isLt := rfl
@[simp] theorem State.setReg_i (k : RegNo) (b : Byte) : (s.setReg k b).i = s.i := rfl
@[simp] theorem State.setReg_pc (k : RegNo) (b : Byte) : (s.setReg k b).pc = s.pc := rfl
@[simp] theorem State.setReg_dt (k : RegNo) (b : Byte) : (s.setReg k b).dt = s.dt := rfl
@[simp] theorem State.setReg_st (k : RegNo) (b : Byte) : (s.setReg k b).st = s.st := rfl
@[simp] theorem State.setReg_stack (k : RegNo) (b : Byte) : (s.setReg k b).stack = s.stack := rfl
@[simp] theorem State.setReg_mem (k : RegNo) (b : Byte) : (s.setReg k b).mem = s.mem := rfl
@[simp] theorem State.setReg_disp (k : RegNo) (b : Byte) : (s.setReg k b).disp = s.disp := rfl
@[simp] theorem State.setReg_wrap (k : RegNo) (b : Byte) : (s.setReg k b).wrap = s.wrap := rfl
@[simp] theorem State.setReg_keys (k : RegNo) (b : Byte) : (s.setReg k b).keys = s.keys := rfl
@[simp] theorem State.setReg_status (k : RegNo) (b : Byte) : (s.setReg k b).status = s.status := rfl
@[simp] theorem State.setReg_params (k : RegNo) (b : Byte) : (s.setReg k b).params = s.params := rfl
@[simp] theorem State.setReg_draws (k : RegNo) (b : Byte) : (s.setReg k b).draws = s.draws := rfl

/-! ## `State.jump` -/

@[simp] theorem State.jump_v (a : Word) : (s.jump a).v = s.v := rfl
@[simp] theorem State.jump_i (a : Word) : (s.jump a).i = s.i := rfl
@[simp] theorem State.jump_pc (a : Word) : (s.jump a).pc = a := rfl
@[simp] theorem State.jump_dt (a : Word) : (s.jump a).dt = s.dt := rfl
@[simp] theorem State.jump_st (a : Word) : (s.jump a).st = s.st := rfl
@[simp] theorem State.jump_stack (a : Word) : (s.jump a).stack = s.stack := rfl
@[simp] theorem State.jump_mem (a : Word) : (s.jump a).mem = s.mem := rfl
@[simp] theorem State.jump_disp (a : Word) : (s.jump a).disp = s.disp := rfl
@[simp] theorem State.jump_wrap (a : Word) : (s.jump a).wrap = s.wrap := rfl
@[simp] theorem State.jump_keys (a : Word) : (s.jump a).keys = s.keys := rfl
@[simp] theorem State.jump_status (a : Word) : (s.jump a).status = s.status := rfl
@[simp] theorem State.jump_params (a : Word) : (s.jump a).params = s.params := rfl
@[simp] theorem State.jump_draws (a : Word) : (s.jump a).draws = s.draws := rfl

/-! ## `State.advance` -/

@[simp] theorem State.advance_v : (s.advance).v = s.v := rfl
@[simp] theorem State.advance_i : (s.advance).i = s.i := rfl
@[simp] theorem State.advance_pc : (s.advance).pc = s.pc + 2 := rfl
@[simp] theorem State.advance_dt : (s.advance).dt = s.dt := rfl
@[simp] theorem State.advance_st : (s.advance).st = s.st := rfl
@[simp] theorem State.advance_stack : (s.advance).stack = s.stack := rfl
@[simp] theorem State.advance_mem : (s.advance).mem = s.mem := rfl
@[simp] theorem State.advance_disp : (s.advance).disp = s.disp := rfl
@[simp] theorem State.advance_wrap : (s.advance).wrap = s.wrap := rfl
@[simp] theorem State.advance_keys : (s.advance).keys = s.keys := rfl
@[simp] theorem State.advance_status : (s.advance).status = s.status := rfl
@[simp] theorem State.advance_params : (s.advance).params = s.params := rfl
@[simp] theorem State.advance_draws : (s.advance).draws = s.draws := rfl

/-! ## `State.rewound` -/

@[simp] theorem State.rewound_v : (s.rewound).v = s.v := rfl
@[simp] theorem State.rewound_i : (s.rewound).i = s.i := rfl
@[simp] theorem State.rewound_pc : (s.rewound).pc = s.pc - 2 := rfl
@[simp] theorem State.rewound_dt : (s.rewound).dt = s.dt := rfl
@[simp] theorem State.rewound_st : (s.rewound).st = s.st := rfl
@[simp] theorem State.rewound_stack : (s.rewound).stack = s.stack := rfl
@[simp] theorem State.rewound_mem : (s.rewound).mem = s.mem := rfl
@[simp] theorem State.rewound_disp : (s.rewound).disp = s.disp := rfl
@[simp] theorem State.rewound_wrap : (s.rewound).wrap = s.wrap := rfl
@[simp] theorem State.rewound_keys : (s.rewound).keys = s.keys := rfl
@[simp] theorem State.rewound_status : (s.rewound).status = s.status := rfl
@[simp] theorem State.rewound_params : (s.rewound).params = s.params := rfl
@[simp] theorem State.rewound_draws : (s.rewound).draws = s.draws := rfl

/-! ## `State.halt` -/

@[simp] theorem State.halt_v (w : Option Word) (f : FaultCause) : (s.halt w f).v = s.v := rfl
@[simp] theorem State.halt_i (w : Option Word) (f : FaultCause) : (s.halt w f).i = s.i := rfl
@[simp] theorem State.halt_pc (w : Option Word) (f : FaultCause) : (s.halt w f).pc = s.pc := rfl
@[simp] theorem State.halt_dt (w : Option Word) (f : FaultCause) : (s.halt w f).dt = s.dt := rfl
@[simp] theorem State.halt_st (w : Option Word) (f : FaultCause) : (s.halt w f).st = s.st := rfl
@[simp] theorem State.halt_stack (w : Option Word) (f : FaultCause) : (s.halt w f).stack = s.stack := rfl
@[simp] theorem State.halt_mem (w : Option Word) (f : FaultCause) : (s.halt w f).mem = s.mem := rfl
@[simp] theorem State.halt_disp (w : Option Word) (f : FaultCause) : (s.halt w f).disp = s.disp := rfl
@[simp] theorem State.halt_wrap (w : Option Word) (f : FaultCause) : (s.halt w f).wrap = s.wrap := rfl
@[simp] theorem State.halt_keys (w : Option Word) (f : FaultCause) : (s.halt w f).keys = s.keys := rfl
@[simp] theorem State.halt_status (w : Option Word) (f : FaultCause) : (s.halt w f).status = .halted { addr := s.pc, word := w, cause := f } := rfl
@[simp] theorem State.halt_params (w : Option Word) (f : FaultCause) : (s.halt w f).params = s.params := rfl
@[simp] theorem State.halt_draws (w : Option Word) (f : FaultCause) : (s.halt w f).draws = s.draws := rfl

/-! ## `State.push` -/

@[simp] theorem State.push_v (a : Word) : (s.push a).v = s.v := rfl
@[simp] theorem State.push_i (a : Word) : (s.push a).i = s.i := rfl
@[simp] theorem State.push_pc (a : Word) : (s.push a).pc = s.pc := rfl
@[simp] theorem State.push_dt (a : Word) : (s.push a).dt = s.dt := rfl
@[simp] theorem State.push_st (a : Word) : (s.push a).st = s.st := rfl
@[simp] theorem State.push_stack (a : Word) : (s.push a).stack = s.stack ++ [a] := rfl
@[simp] theorem State.push_mem (a : Word) : (s.push a).mem = s.mem := rfl
@[simp] theorem State.push_disp (a : Word) : (s.push a).disp = s.disp := rfl
@[simp] theorem State.push_wrap (a : Word) : (s.push a).wrap = s.wrap := rfl
@[simp] theorem State.push_keys (a : Word) : (s.push a).keys = s.keys := rfl
@[simp] theorem State.push_status (a : Word) : (s.push a).status = s.status := rfl
@[simp] theorem State.push_params (a : Word) : (s.push a).params = s.params := rfl
@[simp] theorem State.push_draws (a : Word) : (s.push a).draws = s.draws := rfl

/-! ## `State.tick` -/

@[simp] theorem State.tick_v : (s.tick).v = s.v := rfl
@[simp] theorem State.tick_i : (s.tick).i = s.i := rfl
@[simp] theorem State.tick_pc : (s.tick).pc = s.pc := rfl
@[simp] theorem State.tick_dt : (s.tick).dt = countDown s.dt := rfl
@[simp] theorem State.tick_st : (s.tick).st = countDown s.st := rfl
@[simp] theorem State.tick_stack : (s.tick).stack = s.stack := rfl
@[simp] theorem State.tick_mem : (s.tick).mem = s.mem := rfl
@[simp] theorem State.tick_disp : (s.tick).disp = s.disp := rfl
@[simp] theorem State.tick_wrap : (s.tick).wrap = s.wrap := rfl
@[simp] theorem State.tick_keys : (s.tick).keys = s.keys := rfl
@[simp] theorem State.tick_status : (s.tick).status = s.status := rfl
@[simp] theorem State.tick_params : (s.tick).params = s.params := rfl
@[simp] theorem State.tick_draws : (s.tick).draws = s.draws := rfl

/-! ## `State.loadProgram` -/

@[simp] theorem State.loadProgram_v (p : List Byte) : (s.loadProgram p).v = s.v := rfl
@[simp] theorem State.loadProgram_i (p : List Byte) : (s.loadProgram p).i = s.i := rfl
@[simp] theorem State.loadProgram_pc (p : List Byte) : (s.loadProgram p).pc = s.pc := rfl
@[simp] theorem State.loadProgram_dt (p : List Byte) : (s.loadProgram p).dt = s.dt := rfl
@[simp] theorem State.loadProgram_st (p : List Byte) : (s.loadProgram p).st = s.st := rfl
@[simp] theorem State.loadProgram_stack (p : List Byte) : (s.loadProgram p).stack = s.stack := rfl
@[simp] theorem State.loadProgram_mem (p : List Byte) : (s.loadProgram p).mem = s.mem.writeBytes s.params.fontRom Config.progBase p := rfl
@[simp] theorem State.loadProgram_disp (p : List Byte) : (s.loadProgram p).disp = s.disp := rfl
@[simp] theorem State.loadProgram_wrap (p : List Byte) : (s.loadProgram p).wrap = s.wrap := rfl
@[simp] theorem State.loadProgram_keys (p : List Byte) : (s.loadProgram p).keys = s.keys := rfl
@[simp] theorem State.loadProgram_status (p : List Byte) : (s.loadProgram p).status = s.status := rfl
@[simp] theorem State.loadProgram_params (p : List Byte) : (s.loadProgram p).params = s.params := rfl
@[simp] theorem State.loadProgram_draws (p : List Byte) : (s.loadProgram p).draws = s.draws := rfl

/-! ## `State.resetBlock` -/

@[simp] theorem State.resetBlock_v : s.resetBlock.v = Vector.replicate 16 0 := rfl
@[simp] theorem State.resetBlock_i : s.resetBlock.i = 0 := rfl
@[simp] theorem State.resetBlock_pc : s.resetBlock.pc = 0x200 := rfl
@[simp] theorem State.resetBlock_dt : s.resetBlock.dt = 0 := rfl
@[simp] theorem State.resetBlock_st : s.resetBlock.st = 0 := rfl
@[simp] theorem State.resetBlock_stack : s.resetBlock.stack = [] := rfl
@[simp] theorem State.resetBlock_mem : s.resetBlock.mem = [] := rfl
@[simp] theorem State.resetBlock_disp : s.resetBlock.disp = Display.clear := rfl
@[simp] theorem State.resetBlock_wrap : s.resetBlock.wrap = s.wrap := rfl
@[simp] theorem State.resetBlock_keys : s.resetBlock.keys = s.keys := rfl
@[simp] theorem State.resetBlock_status : s.resetBlock.status = .running := rfl
@[simp] theorem State.resetBlock_params : s.resetBlock.params = s.params := rfl
@[simp] theorem State.resetBlock_draws : s.resetBlock.draws = s.draws := rfl

/-! ## `State.skipIf` -/

@[simp] theorem State.skipIf_pc (c : Bool) : (s.skipIf c).pc = if c then s.pc + 2 else s.pc := by
  cases c <;> rfl

@[simp] theorem State.skipIf_v (c : Bool) : (s.skipIf c).v = s.v := by
  cases c <;> rfl

@[simp] theorem State.skipIf_i (c : Bool) : (s.skipIf c).i = s.i := by
  cases c <;> rfl

@[simp] theorem State.skipIf_dt (c : Bool) : (s.skipIf c).dt = s.dt := by
  cases c <;> rfl

@[simp] theorem State.skipIf_st (c : Bool) : (s.skipIf c).st = s.st := by
  cases c <;> rfl

@[simp] theorem State.skipIf_stack (c : Bool) : (s.skipIf c).stack = s.stack := by
  cases c <;> rfl

@[simp] theorem State.skipIf_mem (c : Bool) : (s.skipIf c).mem = s.mem := by
  cases c <;> rfl

@[simp] theorem State.skipIf_disp (c : Bool) : (s.skipIf c).disp = s.disp := by
  cases c <;> rfl

@[simp] theorem State.skipIf_wrap (c : Bool) : (s.skipIf c).wrap = s.wrap := by
  cases c <;> rfl

@[simp] theorem State.skipIf_keys (c : Bool) : (s.skipIf c).keys = s.keys := by
  cases c <;> rfl

@[simp] theorem State.skipIf_status (c : Bool) : (s.skipIf c).status = s.status := by
  cases c <;> rfl

@[simp] theorem State.skipIf_params (c : Bool) : (s.skipIf c).params = s.params := by
  cases c <;> rfl

@[simp] theorem State.skipIf_draws (c : Bool) : (s.skipIf c).draws = s.draws := by
  cases c <;> rfl

end Sys2Proof.Machine
end

