-- ==== Sys2Proof/Laws/Ops.lean ====
section
/-! SUPPORT. One lemma per shared operation that says everything it can do. -/

namespace Sys2Proof.Machine

/-! ## Registers -/

/-- `VF` is register 15 (R22). -/
@[simp] theorem vf_eq : vf = 15#4 := rfl

theorem State.reg_eq_of_v_eq {s t : State} (h : t.v = s.v) (k : RegNo) : t.reg k = s.reg k := by
  simp [State.reg, h]

@[simp] theorem State.reg_advance (s : State) (k : RegNo) : s.advance.reg k = s.reg k := rfl

@[simp] theorem State.byte_advance (s : State) (a : Nat) : s.advance.byte a = s.byte a := rfl

@[simp] theorem State.base_advance (s : State) : s.advance.base = s.i.toNat := rfl

theorem State.byte_eq_of_mem_eq {s t : State} (hm : t.mem = s.mem) (hp : t.params = s.params) (a : Nat) : t.byte a = s.byte a := by
  simp [State.byte, hm, hp]

/-- A read of any register after a register write. -/
theorem State.reg_setReg (s : State) (k j : RegNo) (b : Byte) :
    (s.setReg k b).reg j = if j = k then b else s.reg j := by
  simp only [State.reg, State.setReg, Vector.getElem_set]
  by_cases h : j = k
  · rw [if_pos (by rw [h]), if_pos h]
  · rw [if_neg (fun e => h (BitVec.eq_of_toNat_eq e.symm)), if_neg h]

@[simp] theorem State.reg_setReg_same (s : State) (k : RegNo) (b : Byte) : (s.setReg k b).reg k = b := by
  rw [reg_setReg, if_pos rfl]

/-- Writing back what a register holds changes nothing. -/
theorem State.setReg_reg (s : State) (k : RegNo) : s.setReg k (s.reg k) = s := by
  simp [State.setReg, State.reg]

/-- A read of any register after a block of registers has been written from `k` up (R187). -/
theorem State.reg_setRegsFrom (s : State) (k : Nat) (bs : List Byte) (hk : k + bs.length ≤ 16) (j : RegNo) :
    (s.setRegsFrom k bs).reg j =
      if h : k ≤ j.toNat ∧ j.toNat < k + bs.length then bs[j.toNat - k]'(by omega) else s.reg j := by
  induction bs generalizing s k with
  | nil => rw [setRegsFrom, dif_neg (by simp)]
  | cons b bs ih =>
    rw [List.length_cons] at hk
    rw [setRegsFrom, ih _ _ (by omega), reg_setReg]
    have hkk : (BitVec.ofNat 4 k).toNat = k := by simp; omega
    by_cases hj : j.toNat = k
    · have hje : j = BitVec.ofNat 4 k := BitVec.eq_of_toNat_eq (by rw [hkk, hj])
      rw [dif_neg (by omega), if_pos hje, dif_pos (by simp only [List.length_cons]; omega)]
      simp [hj]
    · have hje : j ≠ BitVec.ofNat 4 k := fun e => hj (by rw [e, hkk])
      rw [if_neg hje]
      by_cases hin : k + 1 ≤ j.toNat ∧ j.toNat < k + 1 + bs.length
      · rw [dif_pos hin, dif_pos (by simp only [List.length_cons]; omega)]
        rw [List.getElem_cons, dif_neg (by omega)]
        congr 1
      · rw [dif_neg hin, dif_neg (by simp only [List.length_cons]; omega)]

/-- Writing a block of registers changes registers only. -/
theorem State.setRegsFrom_eq (s : State) (k : Nat) (bs : List Byte) :
    s.setRegsFrom k bs = { s with v := (s.setRegsFrom k bs).v } := by
  induction bs generalizing s k with
  | nil => rfl
  | cons b bs ih => rw [setRegsFrom, ih]; rfl

/-! ## Memory -/

theorem inRange_iff (a len : Nat) : inRange a len = true ↔ a < 4096 ∧ a + len ≤ 4096 := by
  rw [inRange, Bool.and_eq_true, decide_eq_true_iff, decide_eq_true_iff]
  rfl

theorem memRead_ok_iff {s : State} {a n : Nat} {bs : List Byte} :
    memRead s a n = .ok bs ↔ (a < 4096 ∧ a + n ≤ 4096) ∧ bs = s.mem.readBytes s.params.fontRom a n := by
  unfold memRead
  split
  · next h => simp [(inRange_iff _ _).1 h, eq_comm]
  · next h => simp only [reduceCtorEq, false_iff]; exact fun hh => h ((inRange_iff _ _).2 hh.1)

theorem memRead_error_iff {s : State} {a n : Nat} {f : FaultCause} :
    memRead s a n = .error f ↔ ¬ (a < 4096 ∧ a + n ≤ 4096) ∧ f = .outOfRange a n := by
  unfold memRead
  split
  · next h => simp [(inRange_iff _ _).1 h]
  · next h =>
    rw [inRange_iff] at h
    simp only [Except.error.injEq, h, not_false_eq_true, true_and]
    exact eq_comm

/-- A read that succeeds gives the bytes of memory, one for each address of the span. -/
theorem memRead_byte {s : State} {a n : Nat} {bs : List Byte} (h : memRead s a n = .ok bs) :
    bs.length = n ∧ ∀ k (hk : k < bs.length), bs[k] = s.byte (a + k) := by
  obtain ⟨_, rfl⟩ := memRead_ok_iff.1 h
  exact ⟨Memory.readBytes_length .., fun k hk => Memory.readBytes_getElem _ _ _ _ _ hk⟩

theorem memWrite_ok_iff {s t : State} {a : Nat} {ws : List Byte} :
    memWrite s a ws = .ok t ↔
      (a < 4096 ∧ a + ws.length ≤ 4096) ∧ t = { s with mem := s.mem.writeBytes s.params.fontRom a ws } := by
  unfold memWrite
  split
  · next h => simp [(inRange_iff _ _).1 h, eq_comm]
  · next h => simp only [reduceCtorEq, false_iff]; exact fun hh => h ((inRange_iff _ _).2 hh.1)

theorem memWrite_error_iff {s : State} {a : Nat} {ws : List Byte} {f : FaultCause} :
    memWrite s a ws = .error f ↔ ¬ (a < 4096 ∧ a + ws.length ≤ 4096) ∧ f = .outOfRange a ws.length := by
  unfold memWrite
  split
  · next h => simp [(inRange_iff _ _).1 h]
  · next h =>
    rw [inRange_iff] at h
    simp only [Except.error.injEq, h, not_false_eq_true, true_and]
    exact eq_comm

/-! ## Fetch -/

theorem fetch_ok_iff {s : State} {w : Word} :
    fetch s = .ok w ↔ s.pc.toNat + 2 ≤ 4096 ∧ w = wordOfBytes (s.byte s.pc.toNat) (s.byte (s.pc.toNat + 1)) := by
  unfold fetch
  cases h : memRead s s.pc.toNat 2 with
  | error f => simp only [reduceCtorEq, false_iff]; rw [memRead_error_iff] at h; omega
  | ok bs =>
    obtain ⟨hr, rfl⟩ := memRead_ok_iff.1 h
    simp only [Memory.readBytes, Except.ok.injEq]
    exact ⟨fun e => ⟨hr.2, e.symm⟩, fun e => e.2.symm⟩

theorem fetch_error_iff {s : State} {f : FaultCause} :
    fetch s = .error f ↔ 4096 < s.pc.toNat + 2 ∧ f = .outOfRange s.pc.toNat 2 := by
  unfold fetch
  cases h : memRead s s.pc.toNat 2 with
  | error g =>
    have h := memRead_error_iff.1 h
    simp only [Except.error.injEq, h.2]
    constructor
    · rintro rfl; exact ⟨by omega, rfl⟩
    · rintro ⟨_, rfl⟩; rfl
  | ok bs =>
    obtain ⟨hr, rfl⟩ := memRead_ok_iff.1 h
    simp only [Memory.readBytes, reduceCtorEq, false_iff]
    omega

/-- What a fetch gives depends on memory, the parameters and `pc` alone. -/
theorem fetch_congr {s t : State} (hm : t.mem = s.mem) (hp : t.params = s.params) (hpc : t.pc = s.pc) : fetch t = fetch s := by
  simp [fetch, memRead, hm, hp, hpc]

/-! ## Taking a fault -/

@[simp] theorem State.rewound_advance (s : State) : s.advance.rewound = s := by
  simp [State.advance, State.rewound]

/-- An instruction's fault, seen from the state before the step: only `status` changes, and the record names the instruction (R222, R224). -/
theorem raise_advance {s : State} {w : Word} (hw : fetch s = .ok w) (f : FaultCause) :
    raise f s.advance = .next { s with status := .halted { addr := s.pc, word := some w, cause := f } } := by
  simp [raise, State.fetchedWord, hw, State.halt]

/-! ## The stack -/

theorem State.pop_eq_none_iff (s : State) : s.pop = none ↔ s.stack = [] := by
  unfold State.pop
  cases h : s.stack.getLast? with
  | none => simpa using h
  | some a =>
    simp only [reduceCtorEq, false_iff]
    rintro e
    simp [e] at h

/-- A pop after a push gives the pushed value and the state before. -/
@[simp] theorem State.pop_push (s : State) (a : Word) : (s.push a).pop = some (a, s) := by
  simp [State.pop, State.push]

theorem State.pop_eq_some {s t : State} {a : Word} (h : s.pop = some (a, t)) :
    s.stack = t.stack ++ [a] ∧ t = { s with stack := s.stack.dropLast } := by
  unfold State.pop at h
  split at h
  · next b hb =>
    simp only [Option.some.injEq, Prod.mk.injEq] at h
    obtain ⟨rfl, rfl⟩ := h
    exact ⟨(List.dropLast_append_getLast? _ hb).symm, rfl⟩
  · simp at h

/-! ## Programs -/

theorem programWellFormed_iff (p : List Byte) : programWellFormed p = true ↔ p.length ≤ 3584 := by
  rw [programWellFormed, decide_eq_true_iff]
  rfl

/-! ## Keys, timers -/

theorem keyOperand_ok_iff {s : State} {x : RegNo} {k : Fin 16} : keyOperand s x = .ok k ↔ (s.reg x).toNat = k.val := by
  unfold keyOperand
  split
  · next h => rw [Except.ok.injEq, Fin.ext_iff]
  · next h => simp only [reduceCtorEq, false_iff]; omega

theorem keyOperand_error_iff {s : State} {x : RegNo} {f : FaultCause} :
    keyOperand s x = .error f ↔ 16 ≤ (s.reg x).toNat ∧ f = .keyIndexOutOfRange (s.reg x) := by
  unfold keyOperand
  split
  · next h => simp only [reduceCtorEq, false_iff]; omega
  · next h =>
    rw [Except.error.injEq]
    exact ⟨fun e => ⟨by omega, e.symm⟩, fun e => e.2.symm⟩

theorem countDown_toNat (t : Byte) : (countDown t).toNat = t.toNat - 1 := by
  unfold countDown
  split
  · next h => simp [h]
  · next h =>
    have : t.toNat ≠ 0 := fun e => h (BitVec.eq_of_toNat_eq e)
    bv_omega

/-! ## Flags and results -/

theorem wrappingAdd_eq (a b : Byte) : wrappingAdd a b = a + b := by
  apply BitVec.eq_of_toNat_eq
  simp [wrappingAdd]

theorem wrappingSub_eq (a b : Byte) : wrappingSub a b = a - b := by
  apply BitVec.eq_of_toNat_eq
  rw [wrappingSub, BitVec.toNat_ofInt, BitVec.toNat_sub]
  have := a.isLt; have := b.isLt
  omega

/-- What the flag writers leave in every register: the result in `V[x]`, else the flag in `VF`, else the old value (R150). -/
theorem reg_flagThenResult (x : RegNo) (flag : Byte) (result : State → Byte) (s : State) (k : RegNo) :
    (flagThenResult x flag result s).reg k =
      if k = x then result (s.setReg 15#4 flag) else if k = 15#4 then flag else s.reg k := by
  simp only [flagThenResult, State.reg_setReg]

/-- The flag writers change registers only. -/
theorem flagThenResult_eq (x : RegNo) (flag : Byte) (result : State → Byte) (s : State) :
    flagThenResult x flag result s = { s with v := (flagThenResult x flag result s).v } := rfl

end Sys2Proof.Machine
end

