-- ==== Sys2Proof/Laws/Display.lean ====
section
/-! SUPPORT. The laws of the grid: one cell toggled, one candidate placed, one bit drawn, a whole sprite drawn. -/

namespace Sys2Proof.Machine

@[simp] theorem Display.cell_clear (c : Fin 64) (r : Fin 32) : Display.clear.cell c r = false := by
  simp [Display.cell, Display.clear]

/-- A read of any cell after a toggle. -/
theorem Display.cell_toggle (d : Display) (c c' : Fin 64) (r r' : Fin 32) :
    (d.toggle c r).cell c' r' = if c' = c ∧ r' = r then !d.cell c r else d.cell c' r' := by
  unfold Display.cell Display.toggle
  by_cases hc : c' = c
  · subst hc
    by_cases hr : r' = r
    · subst hr; simp
    · have : r.val ≠ r'.val := fun e => hr (Fin.ext e.symm)
      simp [hr, this]
  · have : c.val ≠ c'.val := fun e => hc (Fin.ext e.symm)
    simp [hc, this]

/-- A toggle twice is no toggle. -/
@[simp] theorem Display.toggle_toggle (d : Display) (c : Fin 64) (r : Fin 32) : (d.toggle c r).toggle c r = d := by
  simp [Display.toggle]

/-- Two grids that agree on every cell are equal. -/
theorem Display.ext_cell {d d' : Display} (h : ∀ c r, d.cell c r = d'.cell c r) : d = d' := by
  refine Vector.ext fun c hc => Vector.ext fun r hr => ?_
  exact h ⟨c, hc⟩ ⟨r, hr⟩

/-- Where a candidate lands, in both modes (R115, R116). -/
theorem placeCell_eq_some {wrap : Bool} {col row : Nat} {c : Fin 64} {r : Fin 32} :
    placeCell wrap col row = some (c, r) ↔
      if wrap then col % 64 = c.val ∧ row % 32 = r.val else col = c.val ∧ row = r.val := by
  unfold placeCell
  cases wrap with
  | true => simp [Fin.ext_iff]
  | false =>
    simp only [Bool.false_eq_true, if_false]
    split
    · simp [Fin.ext_iff]
    · next h => simp only [reduceCtorEq, false_iff]; omega

/-- One bit of a row: the grid after it (R113). -/
theorem drawBit_cell (wrap bit : Bool) (col row : Nat) (acc : Display × Bool) (c : Fin 64) (r : Fin 32) :
    (drawBit wrap bit col row acc).1.cell c r =
      (acc.1.cell c r ^^ (bit && decide (placeCell wrap col row = some (c, r)))) := by
  unfold drawBit
  cases h : placeCell wrap col row with
  | none => simp
  | some p =>
    obtain ⟨c', r'⟩ := p
    cases bit with
    | false => simp
    | true =>
      simp only [if_true, Display.cell_toggle, Bool.true_and, Option.some.injEq, Prod.mk.injEq]
      by_cases he : c = c' ∧ r = r'
      · obtain ⟨rfl, rfl⟩ := he; simp
      · rw [if_neg he, decide_eq_false (fun e => he ⟨e.1.symm, e.2.symm⟩), Bool.xor_false]

/-- One bit of a row: the collision flag after it (R113). -/
theorem drawBit_hit (wrap bit : Bool) (col row : Nat) (acc : Display × Bool) :
    (drawBit wrap bit col row acc).2 = true ↔
      acc.2 = true ∨ bit = true ∧ ∃ c r, placeCell wrap col row = some (c, r) ∧ acc.1.cell c r = true := by
  unfold drawBit
  cases h : placeCell wrap col row with
  | none => simp
  | some p =>
    obtain ⟨c, r⟩ := p
    cases bit with
    | false => simp
    | true =>
      simp only [if_true, Bool.or_eq_true, true_and, Option.some.injEq, Prod.mk.injEq]
      exact or_congr_right ⟨fun hc => ⟨c, r, ⟨rfl, rfl⟩, hc⟩, fun ⟨_, _, ⟨ec, er⟩, hc⟩ => by rwa [ec, er]⟩

/-! ## A whole sprite

A sprite is drawn bit by bit; its candidates are listed here, and since no two of them land on one cell, the draw is described by the set of cells hit. -/

/-- One bit of a sprite and the column and row it is drawn at. -/
abbrev Candidate := Bool × Nat × Nat

/-- The candidates of a sprite whose rows start at row `y`, in drawing order. -/
def candidates (x : Nat) : Nat → List Byte → List Candidate
  | _, [] => []
  | y, b :: bs => [0, 1, 2, 3, 4, 5, 6, 7].map (fun i => (b.getMsbD i, x + i, y)) ++ candidates x (y + 1) bs

/-- The candidates drawn one after another. -/
def drawAll (wrap : Bool) : List Candidate → Display × Bool → Display × Bool
  | [], acc => acc
  | p :: ps, acc => drawAll wrap ps (drawBit wrap p.1 p.2.1 p.2.2 acc)

/-- The cell a candidate lands on. -/
abbrev Candidate.cell (wrap : Bool) (p : Candidate) : Option (Fin 64 × Fin 32) := placeCell wrap p.2.1 p.2.2

/-- A 1-bit among the candidates lands on `(c, r)`. -/
def Hits (wrap : Bool) (ps : List Candidate) (c : Fin 64) (r : Fin 32) : Prop :=
  ∃ p ∈ ps, p.1 = true ∧ Candidate.cell wrap p = some (c, r)

/-- No two candidates land on one cell. -/
abbrev Apart (wrap : Bool) (ps : List Candidate) : Prop :=
  ps.Pairwise (fun p q => ∀ cr, Candidate.cell wrap p = some cr → Candidate.cell wrap q ≠ some cr)

theorem drawAll_append (wrap : Bool) (ps qs : List Candidate) (acc : Display × Bool) :
    drawAll wrap (ps ++ qs) acc = drawAll wrap qs (drawAll wrap ps acc) := by
  induction ps generalizing acc with
  | nil => rfl
  | cons p ps ih => exact ih _

theorem drawBit_flag (wrap b : Bool) (col row : Nat) (d : Display) (h : Bool) :
    drawBit wrap b col row (d, h) = ((drawBit wrap b col row (d, false)).1, (drawBit wrap b col row (d, false)).2 || h) := by
  unfold drawBit
  split
  · simp
  · split <;> simp [Bool.or_comm]

/-- The flag that comes in is ORed in; it changes nothing else. -/
theorem drawAll_flag (wrap : Bool) (ps : List Candidate) (d : Display) (h : Bool) :
    drawAll wrap ps (d, h) = ((drawAll wrap ps (d, false)).1, (drawAll wrap ps (d, false)).2 || h) := by
  induction ps generalizing d h with
  | nil => simp [drawAll]
  | cons p ps ih =>
    simp only [drawAll]
    rw [drawBit_flag, ih, ← Prod.mk.eta (p := drawBit wrap p.1 p.2.1 p.2.2 (d, false)),
      ih _ (drawBit wrap p.1 p.2.1 p.2.2 (d, false)).2]
    simp [Bool.or_assoc]

/-- The rows of a sprite are its candidates drawn one after another. -/
theorem drawRows_eq_drawAll (wrap : Bool) (x y : Nat) (rows : List Byte) (acc : Display × Bool) :
    drawRows wrap x y rows acc = drawAll wrap (candidates x y rows) acc := by
  induction rows generalizing y acc with
  | nil => rfl
  | cons b rows ih =>
    rw [drawRows, ih, candidates, drawAll_append]
    congr 1
    obtain ⟨d, h⟩ := acc
    rw [drawAll_flag wrap _ d h]
    rfl

theorem mem_candidates {x y : Nat} {rows : List Byte} {p : Candidate} :
    p ∈ candidates x y rows ↔
      ∃ k, ∃ h : k < rows.length, ∃ i, i < 8 ∧ p = (rows[k].getMsbD i, x + i, y + k) := by
  induction rows generalizing y with
  | nil => simp [candidates]
  | cons b rows ih =>
    rw [candidates, List.mem_append, ih]
    constructor
    · rintro (h | ⟨k, hk, i, hi, rfl⟩)
      · obtain ⟨i, hi, rfl⟩ := List.mem_map.1 h
        exact ⟨0, by simp, i, by simp at hi; omega, rfl⟩
      · exact ⟨k + 1, by simp; omega, i, hi, by simp; omega⟩
    · rintro ⟨k, hk, i, hi, rfl⟩
      cases k with
      | zero => exact .inl (List.mem_map.2 ⟨i, by simp; omega, by simp⟩)
      | succ k => exact .inr ⟨k, by simpa using hk, i, hi, by simp; omega⟩

/-- Two candidates on one cell have columns equal modulo 64 and rows equal modulo 32. -/
theorem cell_congr {wrap : Bool} {p q : Candidate} {cr : Fin 64 × Fin 32} (hp : Candidate.cell wrap p = some cr)
    (hq : Candidate.cell wrap q = some cr) : p.2.1 % 64 = q.2.1 % 64 ∧ p.2.2 % 32 = q.2.2 % 32 := by
  obtain ⟨c, r⟩ := cr
  rw [placeCell_eq_some] at hp hq
  have := c.isLt
  have := r.isLt
  cases wrap <;> simp at hp hq <;> omega

/-- A sprite of at most 32 rows lands on each cell at most once. -/
theorem candidates_apart (wrap : Bool) (x y : Nat) (rows : List Byte) (hl : rows.length ≤ 32) :
    Apart wrap (candidates x y rows) := by
  induction rows generalizing y with
  | nil => exact List.Pairwise.nil
  | cons b rows ih =>
    rw [candidates]
    refine List.pairwise_append.2 ⟨?_, ih _ (by simp at hl; omega), ?_⟩
    · rw [List.pairwise_map]
      have : List.Pairwise (fun a b : Nat => a < b ∧ b < 8) [0, 1, 2, 3, 4, 5, 6, 7] := by decide
      refine this.imp fun {i j} hij cr h1 h2 => ?_
      have := (cell_congr h1 h2).1
      simp only at this
      omega
    · intro p hp q hq cr h1 h2
      obtain ⟨i, hi, rfl⟩ := List.mem_map.1 hp
      obtain ⟨k, hk, j, hj, rfl⟩ := mem_candidates.1 hq
      have := (cell_congr h1 h2).2
      simp at hl this
      omega

theorem hits_cons {wrap : Bool} {p : Candidate} {ps : List Candidate} {c : Fin 64} {r : Fin 32} :
    Hits wrap (p :: ps) c r ↔ (p.1 = true ∧ Candidate.cell wrap p = some (c, r)) ∨ Hits wrap ps c r := by
  simp [Hits]

/-- Candidates that stay apart toggle the cells they hit, and no other (R113). -/
theorem drawAll_cell {wrap : Bool} {ps : List Candidate} (h : Apart wrap ps) (acc : Display × Bool) (c : Fin 64) (r : Fin 32) :
    (Hits wrap ps c r → (drawAll wrap ps acc).1.cell c r = !acc.1.cell c r) ∧
    (¬ Hits wrap ps c r → (drawAll wrap ps acc).1.cell c r = acc.1.cell c r) := by
  induction ps generalizing acc with
  | nil => exact ⟨fun ⟨_, hm, _⟩ => (List.not_mem_nil hm).elim, fun _ => rfl⟩
  | cons p ps ih =>
    obtain ⟨h1, h2⟩ := List.pairwise_cons.1 h
    have hstep := drawBit_cell wrap p.1 p.2.1 p.2.2 acc c r
    obtain ⟨ih1, ih2⟩ := ih h2 (drawBit wrap p.1 p.2.1 p.2.2 acc)
    rw [drawAll, hits_cons]
    by_cases hp : p.1 = true ∧ Candidate.cell wrap p = some (c, r)
    · have hn : ¬ Hits wrap ps c r := fun ⟨q, hq, _, hc⟩ => h1 q hq _ hp.2 hc
      refine ⟨fun _ => ?_, fun hh => absurd (.inl hp) hh⟩
      rw [ih2 hn, hstep, hp.1, decide_eq_true hp.2]
      simp
    · have : (p.1 && decide (placeCell wrap p.2.1 p.2.2 = some (c, r))) = false := by
        simpa using fun h0 e => hp ⟨h0, e⟩
      rw [this, Bool.xor_false] at hstep
      exact ⟨fun hh => by rw [ih1 (hh.resolve_left hp), hstep], fun hh => by rw [ih2 (fun e => hh (.inr e)), hstep]⟩

/-- Candidates that stay apart collide exactly when one of them hits a cell that was set before (R113). -/
theorem drawAll_hit {wrap : Bool} {ps : List Candidate} (h : Apart wrap ps) (acc : Display × Bool) :
    (drawAll wrap ps acc).2 = true ↔ acc.2 = true ∨ ∃ c r, Hits wrap ps c r ∧ acc.1.cell c r = true := by
  induction ps generalizing acc with
  | nil => simp [drawAll, Hits]
  | cons p ps ih =>
    obtain ⟨h1, h2⟩ := List.pairwise_cons.1 h
    have key : ∀ c r, Hits wrap ps c r → (drawBit wrap p.1 p.2.1 p.2.2 acc).1.cell c r = acc.1.cell c r := by
      rintro c r ⟨q, hq, _, hc⟩
      rw [drawBit_cell, decide_eq_false (fun e => h1 q hq _ e hc), Bool.and_false, Bool.xor_false]
    rw [drawAll, ih h2, drawBit_hit]
    constructor
    · rintro ((h | ⟨hb, c, r, hc, ha⟩) | ⟨c, r, hh, ha⟩)
      · exact .inl h
      · exact .inr ⟨c, r, hits_cons.2 (.inl ⟨hb, hc⟩), ha⟩
      · exact .inr ⟨c, r, hits_cons.2 (.inr hh), by rwa [← key c r hh]⟩
    · rintro (h | ⟨c, r, hh, ha⟩)
      · exact .inl (.inl h)
      · rcases hits_cons.1 hh with ⟨hb, hc⟩ | hh
        · exact .inl (.inr ⟨hb, c, r, hc, ha⟩)
        · exact .inr ⟨c, r, hh, by rwa [key c r hh]⟩

/-- Bit `i` of a sprite row, most significant first, as a digit of the byte's value. -/
theorem getMsbD_eq_digit (b : Byte) {i : Nat} (h : i < 8) : b.getMsbD i = true ↔ b.toNat / 2 ^ (7 - i) % 2 = 1 := by
  simp [BitVec.getMsbD, h, BitVec.getLsbD, Nat.testBit_eq_decide_div_mod_eq]

end Sys2Proof.Machine
end

