-- ==== Sys2Proof/Laws/PerInstr.lean ====
section
/-! SUPPORT. Statements about every instruction as syntax, one lemma for each constructor of `Instr`. -/

namespace Sys2Proof.Laws.EncodingRow

/-- The word the encoder writes for an instruction belongs to that instruction's row of the opcode map (R88). -/
def Statement (i : Instr) : Prop :=
  ∃ r ∈ opcodeMap, r.mnemonic = i.mnemonic ∧ encode i &&& r.mask = r.value

theorem cls : Statement .cls :=
  ⟨⟨"CLS", 0x00E0, 0xF0FF⟩, by simp [opcodeMap, opcodeMapLow, opcodeMapHigh], rfl, encodeXK_subKey_mask ..⟩

theorem ret : Statement .ret :=
  ⟨⟨"RET", 0x00EE, 0xF0FF⟩, by simp [opcodeMap, opcodeMapLow, opcodeMapHigh], rfl, encodeXK_subKey_mask ..⟩

theorem jp (nnn : Addr12) : Statement (.jp nnn) :=
  ⟨⟨"JP_nnn", 0x1000, 0xF000⟩, by simp [opcodeMap, opcodeMapLow, opcodeMapHigh], rfl, encodeA_family_mask ..⟩

theorem call (nnn : Addr12) : Statement (.call nnn) :=
  ⟨⟨"CALL_nnn", 0x2000, 0xF000⟩, by simp [opcodeMap, opcodeMapLow, opcodeMapHigh], rfl, encodeA_family_mask ..⟩

theorem seImm (x : RegNo) (nn : Byte) : Statement (.seImm x nn) :=
  ⟨⟨"SE_Vx__nn", 0x3000, 0xF000⟩, by simp [opcodeMap, opcodeMapLow, opcodeMapHigh], rfl, encodeXK_family_mask ..⟩

theorem sneImm (x : RegNo) (nn : Byte) : Statement (.sneImm x nn) :=
  ⟨⟨"SNE_Vx__nn", 0x4000, 0xF000⟩, by simp [opcodeMap, opcodeMapLow, opcodeMapHigh], rfl, encodeXK_family_mask ..⟩

theorem seReg (x : RegNo) (y : RegNo) : Statement (.seReg x y) :=
  ⟨⟨"SE_Vx__Vy", 0x5000, 0xF000⟩, by simp [opcodeMap, opcodeMapLow, opcodeMapHigh], rfl, encodeXYN_family_mask ..⟩

theorem ldImm (x : RegNo) (nn : Byte) : Statement (.ldImm x nn) :=
  ⟨⟨"LD_Vx__nn", 0x6000, 0xF000⟩, by simp [opcodeMap, opcodeMapLow, opcodeMapHigh], rfl, encodeXK_family_mask ..⟩

theorem addImm (x : RegNo) (nn : Byte) : Statement (.addImm x nn) :=
  ⟨⟨"ADD_Vx__nn", 0x7000, 0xF000⟩, by simp [opcodeMap, opcodeMapLow, opcodeMapHigh], rfl, encodeXK_family_mask ..⟩

theorem ldReg (x : RegNo) (y : RegNo) : Statement (.ldReg x y) :=
  ⟨⟨"LD_Vx__Vy", 0x8000, 0xF00F⟩, by simp [opcodeMap, opcodeMapLow, opcodeMapHigh], rfl, encodeXYN_subKey_mask ..⟩

theorem orReg (x : RegNo) (y : RegNo) : Statement (.orReg x y) :=
  ⟨⟨"OR_Vx__Vy", 0x8001, 0xF00F⟩, by simp [opcodeMap, opcodeMapLow, opcodeMapHigh], rfl, encodeXYN_subKey_mask ..⟩

theorem andReg (x : RegNo) (y : RegNo) : Statement (.andReg x y) :=
  ⟨⟨"AND_Vx__Vy", 0x8002, 0xF00F⟩, by simp [opcodeMap, opcodeMapLow, opcodeMapHigh], rfl, encodeXYN_subKey_mask ..⟩

theorem xorReg (x : RegNo) (y : RegNo) : Statement (.xorReg x y) :=
  ⟨⟨"XOR_Vx__Vy", 0x8003, 0xF00F⟩, by simp [opcodeMap, opcodeMapLow, opcodeMapHigh], rfl, encodeXYN_subKey_mask ..⟩

theorem addReg (x : RegNo) (y : RegNo) : Statement (.addReg x y) :=
  ⟨⟨"ADD_Vx__Vy", 0x8004, 0xF00F⟩, by simp [opcodeMap, opcodeMapLow, opcodeMapHigh], rfl, encodeXYN_subKey_mask ..⟩

theorem subReg (x : RegNo) (y : RegNo) : Statement (.subReg x y) :=
  ⟨⟨"SUB_Vx__Vy", 0x8005, 0xF00F⟩, by simp [opcodeMap, opcodeMapLow, opcodeMapHigh], rfl, encodeXYN_subKey_mask ..⟩

theorem shr (x : RegNo) (y : RegNo) : Statement (.shr x y) :=
  ⟨⟨"SHR_Vx____Vy", 0x8006, 0xF00F⟩, by simp [opcodeMap, opcodeMapLow, opcodeMapHigh], rfl, encodeXYN_subKey_mask ..⟩

theorem subnReg (x : RegNo) (y : RegNo) : Statement (.subnReg x y) :=
  ⟨⟨"SUBN_Vx__Vy", 0x8007, 0xF00F⟩, by simp [opcodeMap, opcodeMapLow, opcodeMapHigh], rfl, encodeXYN_subKey_mask ..⟩

theorem shl (x : RegNo) (y : RegNo) : Statement (.shl x y) :=
  ⟨⟨"SHL_Vx____Vy", 0x800E, 0xF00F⟩, by simp [opcodeMap, opcodeMapLow, opcodeMapHigh], rfl, encodeXYN_subKey_mask ..⟩

theorem sneReg (x : RegNo) (y : RegNo) : Statement (.sneReg x y) :=
  ⟨⟨"SNE_Vx__Vy", 0x9000, 0xF000⟩, by simp [opcodeMap, opcodeMapLow, opcodeMapHigh], rfl, encodeXYN_family_mask ..⟩

theorem ldI (nnn : Addr12) : Statement (.ldI nnn) :=
  ⟨⟨"LD_I__nnn", 0xA000, 0xF000⟩, by simp [opcodeMap, opcodeMapLow, opcodeMapHigh], rfl, encodeA_family_mask ..⟩

theorem jpV0 (nnn : Addr12) : Statement (.jpV0 nnn) :=
  ⟨⟨"JP_V0__nnn", 0xB000, 0xF000⟩, by simp [opcodeMap, opcodeMapLow, opcodeMapHigh], rfl, encodeA_family_mask ..⟩

theorem rnd (x : RegNo) (nn : Byte) : Statement (.rnd x nn) :=
  ⟨⟨"RND_Vx__nn", 0xC000, 0xF000⟩, by simp [opcodeMap, opcodeMapLow, opcodeMapHigh], rfl, encodeXK_family_mask ..⟩

theorem drw (x : RegNo) (y : RegNo) (n : Nibble) : Statement (.drw x y n) :=
  ⟨⟨"DRW_Vx__Vy__n", 0xD000, 0xF000⟩, by simp [opcodeMap, opcodeMapLow, opcodeMapHigh], rfl, encodeXYN_family_mask ..⟩

theorem skp (x : RegNo) : Statement (.skp x) :=
  ⟨⟨"SKP_Vx", 0xE09E, 0xF0FF⟩, by simp [opcodeMap, opcodeMapLow, opcodeMapHigh], rfl, encodeXK_subKey_mask ..⟩

theorem sknp (x : RegNo) : Statement (.sknp x) :=
  ⟨⟨"SKNP_Vx", 0xE0A1, 0xF0FF⟩, by simp [opcodeMap, opcodeMapLow, opcodeMapHigh], rfl, encodeXK_subKey_mask ..⟩

theorem ldVxDt (x : RegNo) : Statement (.ldVxDt x) :=
  ⟨⟨"LD_Vx__DT", 0xF007, 0xF0FF⟩, by simp [opcodeMap, opcodeMapLow, opcodeMapHigh], rfl, encodeXK_subKey_mask ..⟩

theorem ldVxK (x : RegNo) : Statement (.ldVxK x) :=
  ⟨⟨"LD_Vx__K", 0xF00A, 0xF0FF⟩, by simp [opcodeMap, opcodeMapLow, opcodeMapHigh], rfl, encodeXK_subKey_mask ..⟩

theorem ldDtVx (x : RegNo) : Statement (.ldDtVx x) :=
  ⟨⟨"LD_DT__Vx", 0xF015, 0xF0FF⟩, by simp [opcodeMap, opcodeMapLow, opcodeMapHigh], rfl, encodeXK_subKey_mask ..⟩

theorem ldStVx (x : RegNo) : Statement (.ldStVx x) :=
  ⟨⟨"LD_ST__Vx", 0xF018, 0xF0FF⟩, by simp [opcodeMap, opcodeMapLow, opcodeMapHigh], rfl, encodeXK_subKey_mask ..⟩

theorem addI (x : RegNo) : Statement (.addI x) :=
  ⟨⟨"ADD_I__Vx", 0xF01E, 0xF0FF⟩, by simp [opcodeMap, opcodeMapLow, opcodeMapHigh], rfl, encodeXK_subKey_mask ..⟩

theorem ldF (x : RegNo) : Statement (.ldF x) :=
  ⟨⟨"LD_F__Vx", 0xF029, 0xF0FF⟩, by simp [opcodeMap, opcodeMapLow, opcodeMapHigh], rfl, encodeXK_subKey_mask ..⟩

theorem ldB (x : RegNo) : Statement (.ldB x) :=
  ⟨⟨"LD_B__Vx", 0xF033, 0xF0FF⟩, by simp [opcodeMap, opcodeMapLow, opcodeMapHigh], rfl, encodeXK_subKey_mask ..⟩

theorem storeRegs (x : RegNo) : Statement (.storeRegs x) :=
  ⟨⟨"LD__I___Vx", 0xF055, 0xF0FF⟩, by simp [opcodeMap, opcodeMapLow, opcodeMapHigh], rfl, encodeXK_subKey_mask ..⟩

theorem loadRegs (x : RegNo) : Statement (.loadRegs x) :=
  ⟨⟨"LD_Vx___I", 0xF065, 0xF0FF⟩, by simp [opcodeMap, opcodeMapLow, opcodeMapHigh], rfl, encodeXK_subKey_mask ..⟩

end Sys2Proof.Laws.EncodingRow
end

