-- ==== Sys2Proof/Laws/Step.lean ====
section
/-! SUPPORT. What an instruction and a step can do, said once: inversion lemmas that later proofs cite instead of unfolding. -/

namespace Sys2Proof.Machine

/-! ## The instructions that can fault, by cases -/

theorem execRet_cases {s t : State} (h : execRet s = .next t) :
    (s.stack = [] ∧ raise .stackUnderflow s = .next t) ∨
    ∃ rest a, s.stack = rest ++ [a] ∧ t = { s with stack := rest, pc := a } := by
  unfold execRet at h
  split at h
  · next hp => exact .inl ⟨(State.pop_eq_none_iff s).1 hp, h⟩
  · next a s' hp =>
    obtain ⟨hs, rfl⟩ := State.pop_eq_some hp
    cases h
    exact .inr ⟨_, a, hs, rfl⟩

theorem execCall_cases {nnn : Addr12} {s t : State} (h : execCall nnn s = .next t) :
    (s.params.stackDepth = some s.stack.length ∧ raise .stackOverflow s = .next t) ∨
    (s.params.stackDepth ≠ some s.stack.length ∧ t = { s with stack := s.stack ++ [s.pc], pc := addrOperand nnn }) := by
  unfold execCall State.stackFull at h
  split at h
  · next hf => exact .inl ⟨by simpa using hf, h⟩
  · next hf => cases h; exact .inr ⟨by simpa using hf, rfl⟩

theorem execDrw_cases {x y : RegNo} {n : Nibble} {s t : State} (h : execDrw x y n s = .next t) :
    (¬ (s.i.toNat < 4096 ∧ s.i.toNat + n.toNat ≤ 4096) ∧ raise (.outOfRange s.i.toNat n.toNat) s = .next t) ∨
    ((s.i.toNat < 4096 ∧ s.i.toNat + n.toNat ≤ 4096) ∧
      ∃ drawn, drawn = drawRows s.wrap (s.reg x).toNat (s.reg y).toNat
          (s.mem.readBytes s.params.fontRom s.i.toNat n.toNat) (s.disp, false) ∧
        t = ({ s with disp := drawn.1 } : State).setReg vf (bool01 drawn.2)) := by
  unfold execDrw at h
  split at h
  · next f hf =>
    obtain ⟨hr, rfl⟩ := memRead_error_iff.1 hf
    exact .inl ⟨hr, h⟩
  · next rows hm =>
    obtain ⟨hr, rfl⟩ := memRead_ok_iff.1 hm
    cases h
    exact .inr ⟨hr, _, rfl, rfl⟩

/-- FX33 and FX55 are one store through `I`. -/
theorem store_cases {s t : State} {ws : List Byte}
    (h : (match memWrite s s.base ws with | .ok s' => .next s' | .error f => raise f s) = Host.Outcome.next t) :
    (¬ (s.i.toNat < 4096 ∧ s.i.toNat + ws.length ≤ 4096) ∧ raise (.outOfRange s.i.toNat ws.length) s = .next t) ∨
    ((s.i.toNat < 4096 ∧ s.i.toNat + ws.length ≤ 4096) ∧
      t = { s with mem := s.mem.writeBytes s.params.fontRom s.i.toNat ws }) := by
  split at h
  · next s' hw =>
    obtain ⟨hr, rfl⟩ := memWrite_ok_iff.1 hw
    cases h
    exact .inr ⟨hr, rfl⟩
  · next f hf =>
    obtain ⟨hr, rfl⟩ := memWrite_error_iff.1 hf
    exact .inl ⟨hr, h⟩

@[simp] theorem decimalDigits_length (b : Byte) : (decimalDigits b).length = 3 := rfl

@[simp] theorem blockOfRegs_length (s : State) (x : RegNo) : (blockOfRegs s x).length = x.toNat + 1 := by
  have := x.isLt
  simp [blockOfRegs, blockLength]
  omega

/-- The `k`-th byte FX55 stores is `V[k]` (R186). -/
theorem blockOfRegs_getElem (s : State) (x : RegNo) (k : Nat) (h : k < (blockOfRegs s x).length) :
    (blockOfRegs s x)[k] = s.reg (BitVec.ofNat 4 k) := by
  rw [blockOfRegs_length] at h
  have := x.isLt
  have hk : (BitVec.ofNat 4 k).toNat = k := by simp; omega
  simp [blockOfRegs, State.reg, hk]

theorem execLdB_cases {x : RegNo} {s t : State} (h : execLdB x s = .next t) :
    (¬ (s.i.toNat < 4096 ∧ s.i.toNat + 3 ≤ 4096) ∧ raise (.outOfRange s.i.toNat 3) s = .next t) ∨
    ((s.i.toNat < 4096 ∧ s.i.toNat + 3 ≤ 4096) ∧
      t = { s with mem := s.mem.writeBytes s.params.fontRom s.i.toNat (decimalDigits (s.reg x)) }) :=
  store_cases h

theorem execStoreRegs_cases {x : RegNo} {s t : State} (h : execStoreRegs x s = .next t) :
    (¬ (s.i.toNat < 4096 ∧ s.i.toNat + (x.toNat + 1) ≤ 4096) ∧ raise (.outOfRange s.i.toNat (x.toNat + 1)) s = .next t) ∨
    ((s.i.toNat < 4096 ∧ s.i.toNat + (x.toNat + 1) ≤ 4096) ∧
      t = { s with mem := s.mem.writeBytes s.params.fontRom s.i.toNat (blockOfRegs s x) }) := by
  have := store_cases h
  rwa [blockOfRegs_length] at this

theorem execLoadRegs_cases {x : RegNo} {s t : State} (h : execLoadRegs x s = .next t) :
    (¬ (s.i.toNat < 4096 ∧ s.i.toNat + (x.toNat + 1) ≤ 4096) ∧ raise (.outOfRange s.i.toNat (x.toNat + 1)) s = .next t) ∨
    ((s.i.toNat < 4096 ∧ s.i.toNat + (x.toNat + 1) ≤ 4096) ∧
      t = s.setRegsFrom 0 (s.mem.readBytes s.params.fontRom s.i.toNat (x.toNat + 1))) := by
  unfold execLoadRegs at h
  split at h
  · next bs hm =>
    obtain ⟨hr, rfl⟩ := memRead_ok_iff.1 hm
    cases h
    exact .inr ⟨hr, rfl⟩
  · next f hf =>
    obtain ⟨hr, rfl⟩ := memRead_error_iff.1 hf
    exact .inl ⟨hr, h⟩

theorem execSkp_cases {x : RegNo} {s t : State} (h : execSkp x s = .next t) :
    (16 ≤ (s.reg x).toNat ∧ raise (.keyIndexOutOfRange (s.reg x)) s = .next t) ∨
    ∃ k : Fin 16, (s.reg x).toNat = k.val ∧ t = s.skipIf (s.isDown k) := by
  unfold execSkp at h
  split at h
  · next k hk => cases h; exact .inr ⟨k, keyOperand_ok_iff.1 hk, rfl⟩
  · next f hf =>
    obtain ⟨hr, rfl⟩ := keyOperand_error_iff.1 hf
    exact .inl ⟨hr, h⟩

theorem execSknp_cases {x : RegNo} {s t : State} (h : execSknp x s = .next t) :
    (16 ≤ (s.reg x).toNat ∧ raise (.keyIndexOutOfRange (s.reg x)) s = .next t) ∨
    ∃ k : Fin 16, (s.reg x).toNat = k.val ∧ t = s.skipIf (!s.isDown k) := by
  unfold execSknp at h
  split at h
  · next k hk => cases h; exact .inr ⟨k, keyOperand_ok_iff.1 hk, rfl⟩
  · next f hf =>
    obtain ⟨hr, rfl⟩ := keyOperand_error_iff.1 hf
    exact .inl ⟨hr, h⟩

theorem execLdVxK_cases {x : RegNo} {s t : State} (h : execLdVxK x s = .next t) :
    (s.keys.justPressed = none ∧ t = s.rewound) ∨
    ∃ k, s.keys.justPressed = some k ∧ t = s.setReg x (BitVec.ofNat 8 k.val) := by
  unfold execLdVxK at h
  split at h
  · next k hk => cases h; exact .inr ⟨k, hk, rfl⟩
  · next hk => cases h; exact .inl ⟨hk, rfl⟩

/-! ## An instruction that can raise a fault, and the rest -/

/-- The cause an instruction may raise, with its condition on the post-fetch state (R220). -/
def Raises (i : Instr) (s : State) (f : FaultCause) : Prop :=
  (f = .stackUnderflow ∧ i = .ret ∧ s.stack = []) ∨
  (∃ nnn, f = .stackOverflow ∧ i = .call nnn ∧ s.params.stackDepth = some s.stack.length) ∨
  (∃ len, f = .outOfRange s.i.toNat len ∧ accessLength i = some len ∧ (4096 ≤ s.i.toNat ∨ 4096 < s.i.toNat + len)) ∨
  (∃ x, f = .keyIndexOutOfRange (s.reg x) ∧ keyRegister i = some x ∧ 15 < (s.reg x).toNat)

/-- Inversion of `raise`. -/
theorem raise_eq_next {f : FaultCause} {s t : State} : raise f s = .next t ↔ t = s.rewound.halt s.fetchedWord f := by
  simp [raise, eq_comm]

/-- Every instruction either raises one of its faults, with the condition of that fault, or leaves `status` as it was. -/
theorem exec_cases {i : Instr} {s t : State} (h : exec i s = .next t) :
    (∃ f, Raises i s f ∧ t = s.rewound.halt s.fetchedWord f) ∨ t.status = s.status := by
  cases i
  case ret =>
    rcases execRet_cases h with ⟨h1, h2⟩ | ⟨rest, a, h1, rfl⟩
    · exact .inl ⟨_, .inl ⟨rfl, rfl, h1⟩, raise_eq_next.1 h2⟩
    · exact .inr rfl
  case call =>
    rcases execCall_cases h with ⟨h1, h2⟩ | ⟨h1, rfl⟩
    · exact .inl ⟨_, .inr (.inl ⟨_, rfl, rfl, h1⟩), raise_eq_next.1 h2⟩
    · exact .inr rfl
  case drw =>
    rcases execDrw_cases h with ⟨h1, h2⟩ | ⟨h1, d, _, rfl⟩
    · exact .inl ⟨_, .inr (.inr (.inl ⟨_, rfl, rfl, by omega⟩)), raise_eq_next.1 h2⟩
    · exact .inr rfl
  case ldB =>
    rcases execLdB_cases h with ⟨h1, h2⟩ | ⟨h1, rfl⟩
    · exact .inl ⟨_, .inr (.inr (.inl ⟨_, rfl, rfl, by omega⟩)), raise_eq_next.1 h2⟩
    · exact .inr rfl
  case storeRegs =>
    rcases execStoreRegs_cases h with ⟨h1, h2⟩ | ⟨h1, rfl⟩
    · exact .inl ⟨_, .inr (.inr (.inl ⟨_, rfl, rfl, by omega⟩)), raise_eq_next.1 h2⟩
    · exact .inr rfl
  case loadRegs =>
    rcases execLoadRegs_cases h with ⟨h1, h2⟩ | ⟨h1, rfl⟩
    · exact .inl ⟨_, .inr (.inr (.inl ⟨_, rfl, rfl, by omega⟩)), raise_eq_next.1 h2⟩
    · exact .inr (by rw [State.setRegsFrom_eq])
  case skp x =>
    rcases execSkp_cases h with ⟨h1, h2⟩ | ⟨k, h1, rfl⟩
    · exact .inl ⟨_, .inr (.inr (.inr ⟨_, rfl, rfl, by omega⟩)), raise_eq_next.1 h2⟩
    · exact .inr (by simp)
  case sknp x =>
    rcases execSknp_cases h with ⟨h1, h2⟩ | ⟨k, h1, rfl⟩
    · exact .inl ⟨_, .inr (.inr (.inr ⟨_, rfl, rfl, by omega⟩)), raise_eq_next.1 h2⟩
    · exact .inr (by simp)
  case ldVxK x =>
    rcases execLdVxK_cases h with ⟨h1, rfl⟩ | ⟨k, h1, rfl⟩ <;> exact .inr rfl
  all_goals
    cases h
    exact .inr (by simp [maskedDraw, State.drawRandom, flagThenResult])

/-! ## A step -/

/-- What a step that answers a next state did: it faulted in the fetch, it faulted in decode, or it ran the decoded instruction (R81, R223). -/
theorem step_cases {s t : State} (h : step s = .next t) :
    s.status = .running ∧
    ((4096 < s.pc.toNat + 2 ∧ t = s.halt none (.outOfRange s.pc.toNat 2)) ∨
     ∃ w, fetch s = .ok w ∧
      ((∃ e, decode w = .error e ∧ t = s.halt (some w) .illegalInstruction) ∨
       ∃ i, decode w = .ok i ∧ exec i s.advance = .next t)) := by
  unfold step at h
  split at h
  · cases h
  · next hr =>
    refine ⟨hr, ?_⟩
    split at h
    · next f hf =>
      obtain ⟨hb, rfl⟩ := fetch_error_iff.1 hf
      cases h
      exact .inl ⟨hb, rfl⟩
    · next w hw =>
      refine .inr ⟨w, hw, ?_⟩
      split at h
      · next e he => cases h; exact .inl ⟨e, he, rfl⟩
      · next i hi => exact .inr ⟨i, hi, h⟩

/-- A step of a running block whose word decodes runs that instruction on the post-fetch state. -/
theorem step_of_decode {s : State} {w : Word} {i : Instr} (hr : s.status = .running) (hf : fetch s = .ok w)
    (hd : decode w = .ok i) : step s = exec i s.advance := by
  simp [step, hr, hf, hd]

end Sys2Proof.Machine
end

