-- ==== Sys2Proof/Tests/Slice0.lean ====
section
/-! SUPPORT. The model's own tests. Words are written out from R84 and R88; expected results are the test vectors of spec/95_test_vectors.md (named T-…) or follow from the rule cited. The second half holds one witness for every obligation that has hypotheses. -/

namespace Sys2Proof.Machine.Tests

open Sys2Proof Sys2Proof.Machine

/-! ## Helpers -/

/-- The outcome is a next state that passes the check. -/
def nextIs (o : Host.Outcome State Fault Refusal) (p : State → Bool) : Bool :=
  match o with
  | .next t => p t
  | .fault _ => false
  | .refused _ => false

/-- The next state of an outcome, or the state given if there is none. -/
def nextOr (s : State) (o : Host.Outcome State Fault Refusal) : State :=
  match o with
  | .next t => t
  | .fault _ => s
  | .refused _ => s

theorem eq_next_of {o : Host.Outcome State Fault Refusal} (s : State) (h : nextIs o (fun _ => true) = true) :
    o = .next (nextOr s o) := by
  cases o with
  | next t => rfl
  | fault f => cases h
  | refused r => cases h

/-- The construction state with the bytes given placed at an address. -/
def placed (a : Nat) (bytes : List Byte) : State :=
  { State.reset with mem := Memory.writeBytes Config.conventionalFont [] a bytes }

/-- The construction state with the word at 0x200. -/
def withWord (w : Word) : State := placed 0x200 (wordBytes w)

/-- `V1`, `V2` and `VF` as the tables of 95_test_vectors.md give them. -/
def regs (a b f : Byte) (s : State) : State := ((s.setReg 1 a).setReg 2 b).setReg 15 f

/-- One step of the word at 0x200 with `V1`, `V2` and `VF` given passes the check. -/
def aluStep (w : Word) (a b f : Byte) (p : State → Bool) : Bool := nextIs (step (regs a b f (withWord w))) p

/-- The checks of a fault that commits nothing but `status` (R222). -/
def faultsWith (s : State) (word : Option Word) (cause : FaultCause) (code : Nat) : Bool :=
  nextIs (step s) (fun t =>
    t == { s with status := .halted { addr := s.pc, word := word, cause := cause } } &&
    t.haltRecord.map FaultRecord.code == some code)

/-- The cells of row `r` that are set, by column. -/
def rowCells (s : State) (r : Fin 32) : List Nat :=
  (List.finRange 64).filterMap (fun c => if s.pixel c r then some c.val else none)

/-- A single cell set in a clear grid. -/
def setCell (c : Fin 64) (r : Fin 32) (s : State) : State := { s with disp := s.disp.toggle c r }

/-- A sprite at 0x300, the coordinates in `V0` and `V1`, the word at 0x200. -/
def sprite (w : Word) (bytes : List Byte) (x y : Byte) (wrap : Bool) : State :=
  let s := withWord w
  { ((s.setReg 0 x).setReg 1 y) with
    i := 0x300, wrap := wrap, mem := s.mem.writeBytes Config.conventionalFont 0x300 bytes }

/-! ## Decoding: one word for every constructor, written from R84 and R88 -/

theorem test_decode_cls : decode 0b0000010111100000#16 = .ok .cls := by rfl
theorem test_decode_ret : decode 0b0000111111101110#16 = .ok .ret := by rfl
theorem test_decode_jp : decode 0b0001101010111100#16 = .ok (.jp 0xABC) := by rfl
theorem test_decode_call : decode 0b0010001000010000#16 = .ok (.call 0x210) := by rfl
theorem test_decode_seImm : decode 0b0011101000010000#16 = .ok (.seImm 0xA 0x10) := by rfl
theorem test_decode_sneImm : decode 0b0100001100010001#16 = .ok (.sneImm 0x3 0x11) := by rfl
theorem test_decode_seReg : decode 0b0101000100101111#16 = .ok (.seReg 0x1 0x2) := by rfl
theorem test_decode_ldImm : decode 0b0110101010011101#16 = .ok (.ldImm 0xA 0x9D) := by rfl
theorem test_decode_addImm : decode 0b0111000011111110#16 = .ok (.addImm 0x0 0xFE) := by rfl
theorem test_decode_ldReg : decode 0b1000000100100000#16 = .ok (.ldReg 0x1 0x2) := by rfl
theorem test_decode_orReg : decode 0b1000000100100001#16 = .ok (.orReg 0x1 0x2) := by rfl
theorem test_decode_andReg : decode 0b1000000100100010#16 = .ok (.andReg 0x1 0x2) := by rfl
theorem test_decode_xorReg : decode 0b1000000100100011#16 = .ok (.xorReg 0x1 0x2) := by rfl
theorem test_decode_addReg : decode 0b1000000111110100#16 = .ok (.addReg 0x1 0xF) := by rfl
theorem test_decode_subReg : decode 0b1000000100100101#16 = .ok (.subReg 0x1 0x2) := by rfl
theorem test_decode_shr : decode 0b1000000100100110#16 = .ok (.shr 0x1 0x2) := by rfl
theorem test_decode_subnReg : decode 0b1000000100100111#16 = .ok (.subnReg 0x1 0x2) := by rfl
theorem test_decode_shl : decode 0b1000000100101110#16 = .ok (.shl 0x1 0x2) := by rfl
theorem test_decode_sneReg : decode 0b1001000100100111#16 = .ok (.sneReg 0x1 0x2) := by rfl
theorem test_decode_ldI : decode 0b1010001100000000#16 = .ok (.ldI 0x300) := by rfl
theorem test_decode_jpV0 : decode 0b1011000111111111#16 = .ok (.jpV0 0x1FF) := by rfl
theorem test_decode_rnd : decode 0b1100000100001111#16 = .ok (.rnd 0x1 0x0F) := by rfl
theorem test_decode_drw : decode 0b1101000000010100#16 = .ok (.drw 0x0 0x1 0x4) := by rfl
theorem test_decode_skp : decode 0b1110010110011110#16 = .ok (.skp 0x5) := by rfl
theorem test_decode_sknp : decode 0b1110010110100001#16 = .ok (.sknp 0x5) := by rfl
theorem test_decode_ldVxDt : decode 0b1111001100000111#16 = .ok (.ldVxDt 0x3) := by rfl
theorem test_decode_ldVxK : decode 0b1111001100001010#16 = .ok (.ldVxK 0x3) := by rfl
theorem test_decode_ldDtVx : decode 0b1111000000010101#16 = .ok (.ldDtVx 0x0) := by rfl
theorem test_decode_ldStVx : decode 0b1111000100011000#16 = .ok (.ldStVx 0x1) := by rfl
theorem test_decode_addI : decode 0b1111001000011110#16 = .ok (.addI 0x2) := by rfl
theorem test_decode_ldF : decode 0b1111001100101001#16 = .ok (.ldF 0x3) := by rfl
theorem test_decode_ldB : decode 0b1111000100110011#16 = .ok (.ldB 0x1) := by rfl
theorem test_decode_storeRegs : decode 0b1111001001010101#16 = .ok (.storeRegs 0x2) := by rfl
theorem test_decode_loadRegs : decode 0b1111001001100101#16 = .ok (.loadRegs 0x2) := by rfl

/-! ## Well-formedness: an ill-formed term for each check (R89, R80, R264) -/

theorem test_illFormed_family0 : wordWellFormed 0x0000 = false ∧ wordWellFormed 0x0123 = false := by decide
theorem test_illFormed_family8 : wordWellFormed 0x8128 = false ∧ wordWellFormed 0x812F = false := by decide
theorem test_illFormed_familyE : wordWellFormed 0xE19F = false := by decide
theorem test_illFormed_familyF : wordWellFormed 0xF100 = false := by decide
theorem test_wellFormed : wordWellFormed 0x0FEE = true ∧ wordWellFormed 0x812E = true ∧ wordWellFormed 0x512F = true := by decide
theorem test_illFormed_rejected : decode 0x8128 = .error (.illegalInstruction 0x8128) := by rfl
theorem test_tooShort : decodeBytes [0x12] = .error .tooShort := by rfl
theorem test_bytes_rest : decodeBytes [0x12, 0x34, 0x56] = .ok (.jp 0x234, [0x56]) := by rfl
theorem test_illFormed_program : programWellFormed (List.replicate 3585 0) = false := by
  rw [programWellFormed, List.length_replicate]
  decide

/-! ## Reset, and the host's two questions on one word -/

/-- R39: pc at 0x200, running, the font image at 0 and zero above it. -/
theorem test_reset : State.reset.pc = 0x200 ∧ State.reset.status = .running ∧ State.reset.byte 0 = 0xF0 ∧
    State.reset.byte 79 = 0x80 ∧ State.reset.byte 80 = 0 := by decide

theorem test_tableWord : decodeTableWord 16 0x1234 = some (.jp 0x234) ∧ decodeTableWord 16 0x8128 = none := by decide

/-- T-D1, through `withFetchWord`. -/
theorem test_withFetchWord : nextIs (step (State.reset.withFetchWord 16 0x1234)) (·.pc == 0x234) = true := by decide

/-! ## Fetch and decode (T-D2 to T-D6) -/

theorem test_fetch_odd : nextIs (step { placed 0x201 [0x60, 0x7F] with pc := 0x201 })
    (fun t => t.reg 0 == 0x7F && t.pc == 0x203) = true := by decide

theorem test_fetch_top : faultsWith { State.reset with pc := 0xFFF } none (.outOfRange 0xFFF 2) 3 = true := by decide

theorem test_illegal : faultsWith State.reset (some 0x0000) .illegalInstruction 1 = true ∧
    faultsWith (withWord 0x0123) (some 0x0123) .illegalInstruction 1 = true := by decide

/-! ## Display (T-G1 to T-G16) -/

theorem test_cls : nextIs (step (setCell 5 9 (regs 0 0 0x55 (withWord 0x00E0))))
    (fun t => rowCells t 9 == [] && t.reg 15 == 0x55 && t.pc == 0x202) = true := by decide

/-- T-G5: a row wraps from column 60 to column 3. -/
theorem test_drw_wrap : nextIs (step (sprite 0xD011 [0xFF] 60 0 true))
    (fun t => rowCells t 0 == [0, 1, 2, 3, 60, 61, 62, 63] && t.reg 15 == 0) = true := by decide

/-- T-G4: with wrap off the row is cut. -/
theorem test_drw_clip : nextIs (step (sprite 0xD011 [0xFF] 60 0 false))
    (fun t => rowCells t 0 == [60, 61, 62, 63] && rowCells t 1 == [] && t.reg 15 == 0) = true := by decide

/-- T-G16: a collision in row 1 only counts. -/
theorem test_drw_collision : nextIs (step (setCell 0 1 (sprite 0xD012 [0x80, 0x80] 0 0 true)))
    (fun t => rowCells t 0 == [0] && rowCells t 1 == [] && t.reg 15 == 1) = true := by decide

/-- T-G12: the empty sprite is range-checked too. -/
theorem test_drw_fault : faultsWith { withWord 0xD000 with i := 0x1000 } (some 0xD000) (.outOfRange 0x1000 0) 3 = true := by decide

/-! ## Control transfer (T-C1 to T-C15) -/

theorem test_jp : nextIs (step (withWord 0x1ABC)) (·.pc == 0xABC) = true := by decide

theorem test_call : nextIs (step { placed 0x204 [0x22, 0x10] with pc := 0x204 })
    (fun t => t.stack == [0x206] && t.pc == 0x210) = true := by decide

theorem test_call_full :
    faultsWith { withWord 0x2300 with stack := List.replicate 16 0x202, params := { Params.default with stackDepth := some 16 } }
      (some 0x2300) .stackOverflow 4 = true := by decide

theorem test_ret : nextIs (step { placed 0x212 [0x00, 0xEE] with pc := 0x212, stack := [0x204, 0x206] })
    (fun t => t.stack == [0x204] && t.pc == 0x206) = true := by decide

theorem test_ret_empty : faultsWith (withWord 0x00EE) (some 0x00EE) .stackUnderflow 2 = true := by decide

theorem test_seImm : nextIs (step ((withWord 0x3310).setReg 3 0x10)) (·.pc == 0x204) = true ∧
    nextIs (step ((withWord 0x3311).setReg 3 0x10)) (·.pc == 0x202) = true := by decide

theorem test_sneImm : nextIs (step ((withWord 0x4310).setReg 3 0x10)) (·.pc == 0x202) = true ∧
    nextIs (step ((withWord 0x4311).setReg 3 0x10)) (·.pc == 0x204) = true := by decide

theorem test_seReg : aluStep 0x5120 7 7 0 (·.pc == 0x204) = true ∧ aluStep 0x5120 7 8 0 (·.pc == 0x202) = true := by decide

theorem test_sneReg : aluStep 0x9120 7 7 0 (·.pc == 0x202) = true ∧ aluStep 0x9127 3 4 0 (·.pc == 0x204) = true := by decide

/-- T-C12: `V0` is used, not `V1`. -/
theorem test_jpV0 : nextIs (step (((withWord 0xB1FF).setReg 0 0xFF).setReg 1 0x55)) (·.pc == 0x2FE) = true := by decide

/-! ## Registers and arithmetic (T-A1 to T-A41) -/

theorem test_ldImm : aluStep 0x6A9D 0 0 0x33 (fun t => t.reg 10 == 0x9D && t.reg 15 == 0x33) = true := by decide

/-- T-A3: no carry flag. -/
theorem test_addImm : aluStep 0x7101 0xFF 0 0x33 (fun t => t.reg 1 == 0 && t.reg 15 == 0x33) = true := by decide

theorem test_ldReg : aluStep 0x8120 0x11 0x05 0x33 (fun t => t.reg 1 == 0x05 && t.reg 15 == 0x33) = true := by decide
theorem test_orReg : aluStep 0x8121 0x0F 0xF0 0x33 (fun t => t.reg 1 == 0xFF && t.reg 15 == 0x33) = true := by decide
theorem test_andReg : aluStep 0x8122 0x3C 0x0F 0x33 (fun t => t.reg 1 == 0x0C && t.reg 15 == 0x33) = true := by decide
theorem test_xorReg : aluStep 0x8123 0x3C 0x0F 0x33 (fun t => t.reg 1 == 0x33 && t.reg 15 == 0x33) = true := by decide

/-- T-A12, T-A9. -/
theorem test_addReg : aluStep 0x8124 0xFF 0xFF 0 (fun t => t.reg 1 == 0xFE && t.reg 15 == 1) = true ∧
    aluStep 0x8124 0x12 0x34 1 (fun t => t.reg 1 == 0x46 && t.reg 15 == 0) = true := by decide

/-- T-A16, T-A17: `VF` as destination and as source. -/
theorem test_addReg_vf : aluStep 0x8F24 0 0x20 0x10 (·.reg 15 == 0x30) = true ∧
    aluStep 0x81F4 0x10 0 0x20 (fun t => t.reg 1 == 0x30 && t.reg 15 == 0) = true := by decide

/-- T-A19, T-A20. -/
theorem test_subReg : aluStep 0x8125 0x03 0x05 1 (fun t => t.reg 1 == 0xFE && t.reg 15 == 0) = true ∧
    aluStep 0x8125 0x07 0x07 0 (fun t => t.reg 1 == 0 && t.reg 15 == 1) = true := by decide

/-- T-A22, T-A23, T-A24. -/
theorem test_subReg_vf : aluStep 0x8F25 0 0x03 0x05 (·.reg 15 == 0xFE) = true ∧
    aluStep 0x81F5 0x05 0 0x03 (fun t => t.reg 1 == 0x04 && t.reg 15 == 1) = true ∧
    aluStep 0x8FF5 0 0 0x09 (·.reg 15 == 0) = true := by decide

/-- T-A27, T-A28. -/
theorem test_shr : aluStep 0x8126 0xFF 0x55 0 (fun t => t.reg 1 == 0x7F && t.reg 15 == 1 && t.reg 2 == 0x55) = true ∧
    aluStep 0x8F26 0 0 0x03 (·.reg 15 == 0) = true := by decide

/-- T-A29, T-A30. -/
theorem test_subnReg : aluStep 0x8127 0x03 0x05 0 (fun t => t.reg 1 == 0x02 && t.reg 15 == 1) = true ∧
    aluStep 0x8127 0x05 0x03 1 (fun t => t.reg 1 == 0xFE && t.reg 15 == 0) = true := by decide

/-- T-A32, T-A33. -/
theorem test_subnReg_vf : aluStep 0x8F27 0 0x05 0x03 (·.reg 15 == 0x04) = true ∧
    aluStep 0x81F7 0x03 0 0x05 (fun t => t.reg 1 == 0xFE && t.reg 15 == 1) = true := by decide

/-- T-A34, T-A37. -/
theorem test_shl : aluStep 0x812E 0x81 0x55 0 (fun t => t.reg 1 == 0x02 && t.reg 15 == 1 && t.reg 2 == 0x55) = true ∧
    aluStep 0x8F2E 0 0 0x80 (·.reg 15 == 0x02) = true := by decide

/-- T-A39: what the instruction does with the drawn byte 0xB7. -/
theorem test_rnd : (maskedDraw 1 0x0F 0xB7 State.reset).reg 1 = 0x07 := by decide

/-! ## Index register and memory (T-M1 to T-M20) -/

theorem test_ldI : nextIs (step (withWord 0xA300)) (·.i == 0x300) = true := by decide

/-- T-M2, T-M3. -/
theorem test_addI : nextIs (step (regs 0 2 0x33 { withWord 0xF21E with i := 0x0FFF })) (fun t => t.i == 0x1001 && t.reg 15 == 0x33) = true ∧
    nextIs (step (regs 0 1 0x33 { withWord 0xF21E with i := 0xFFFF })) (·.i == 0) = true := by decide

/-- T-M5: not masked. -/
theorem test_ldF : nextIs (step ((withWord 0xF329).setReg 3 0xFF)) (·.i == 0x4FB) = true := by decide

/-- T-M6. -/
theorem test_ldB : nextIs (step (regs 157 0 0 { withWord 0xF133 with i := 0x300 }))
    (fun t => t.byte 0x300 == 1 && t.byte 0x301 == 5 && t.byte 0x302 == 7 && t.i == 0x300) = true := by decide

/-- T-M11. -/
theorem test_ldB_fault : faultsWith { withWord 0xF133 with i := 0xFFE } (some 0xF133) (.outOfRange 0xFFE 3) 3 = true := by decide

/-- T-M12: the byte after the block keeps its value. -/
theorem test_storeRegs : nextIs (step (((regs 2 3 0 (withWord 0xF255)).setReg 0 1).setReg 3 9 |> fun s => { s with i := 0x400 }))
    (fun t => t.byte 0x400 == 1 && t.byte 0x401 == 2 && t.byte 0x402 == 3 && t.byte 0x403 == 0 && t.i == 0x400) = true := by decide

/-- T-M15. -/
theorem test_storeRegs_fault : faultsWith { withWord 0xFF55 with i := 0xFF1 } (some 0xFF55) (.outOfRange 0xFF1 16) 3 = true := by decide

/-- T-M16. -/
theorem test_loadRegs : nextIs (step ((sprite 0xF265 [1, 5, 7, 8] 0 0 false).setReg 3 0x99))
    (fun t => t.reg 0 == 1 && t.reg 1 == 5 && t.reg 2 == 7 && t.reg 3 == 0x99 && t.i == 0x300) = true := by decide

/-- T-M18: the font image is data. -/
theorem test_loadRegs_font : nextIs (step (withWord 0xF465)) (fun t => t.reg 0 == 0xF0 && t.reg 1 == 0x90 && t.reg 4 == 0xF0) = true := by decide

/-! ## Keyboard and timers (T-K1 to T-K13) -/

/-- The key held down in an otherwise untouched keyboard. -/
def holding (k : Fin 16) (s : State) : State := { s with keys := { s.keys with down := s.keys.down.set k true } }

theorem test_skp : nextIs (step (holding 7 ((withWord 0xE59E).setReg 5 7))) (·.pc == 0x204) = true ∧
    nextIs (step ((withWord 0xE59E).setReg 5 7)) (·.pc == 0x202) = true := by decide

theorem test_skp_fault : faultsWith ((withWord 0xE59E).setReg 5 16) (some 0xE59E) (.keyIndexOutOfRange 16) 5 = true := by decide

theorem test_sknp : nextIs (step (holding 7 ((withWord 0xE5A1).setReg 5 7))) (·.pc == 0x202) = true ∧
    nextIs (step ((withWord 0xE5A1).setReg 5 7)) (·.pc == 0x204) = true := by decide

theorem test_ldVxDt : nextIs (step { withWord 0xF307 with dt := 0x3C }) (fun t => t.reg 3 == 0x3C && t.dt == 0x3C) = true := by decide

/-- T-K7: the key is not consumed. -/
theorem test_ldVxK : nextIs (step { withWord 0xF30A with keys := { State.reset.keys with justPressed := some 0xC } })
    (fun t => t.reg 3 == 0x0C && t.pc == 0x202 && t.keys.justPressed == some 0xC) = true := by decide

/-- T-K8: a key that is only held down does not end the wait; the step changes nothing. -/
theorem test_ldVxK_wait : nextIs (step (holding 4 (withWord 0xF30A))) (fun t => t == holding 4 (withWord 0xF30A)) = true := by decide

theorem test_ldDtVx : nextIs (step ((withWord 0xF015).setReg 0 7)) (·.dt == 7) = true := by decide
theorem test_ldStVx : nextIs (step (regs 2 0 0 (withWord 0xF118))) (fun t => t.st == 2 && t.soundOn) = true := by decide

/-- T-K12, T-K13. -/
theorem test_tick : nextIs (Command.apply .tick { State.reset with dt := 2, st := 1 }) (fun t => t.dt == 1 && t.st == 0 && !t.soundOn) = true ∧
    nextIs (Command.apply .tick State.reset) (fun t => t.dt == 0 && t.st == 0) = true := by decide

/-! ## RESET (T-R1) -/

theorem test_reset_command :
    nextIs (Command.apply .reset { regs 1 2 3 (withWord 0x1234) with wrap := true, pc := 0x666, stack := [1], dt := 3 })
      (fun t => t.wrap && t.pc == 0x200 && t.stack == [] && t.dt == 0 && t.byte 0x200 == 0 && t.reg 1 == 0) = true := by decide

/-! ## Witnesses: states and operands that meet the hypotheses of each obligation, at the boundaries of each clause -/

/-- `Fetches`, as a check. -/
def fetchesCheck (s : State) (w : Word) (i : Instr) : Bool :=
  s.status == .running && decide (s.pc.toNat + 2 ≤ 4096) &&
  w.toNat == (s.byte s.pc.toNat).toNat * 256 + (s.byte (s.pc.toNat + 1)).toNat &&
  (match decode w with | .ok j => j == i | .error _ => false)

theorem fetches_of_check {s : State} {w : Word} {i : Instr} (h : fetchesCheck s w i = true) : Fetches s w i := by
  simp only [fetchesCheck, Bool.and_eq_true, beq_iff_eq, decide_eq_true_eq] at h
  obtain ⟨⟨⟨h1, h2⟩, h3⟩, h4⟩ := h
  refine ⟨h1, h2, h3, ?_⟩
  split at h4
  · next j hj => rw [hj, beq_iff_eq.1 h4]
  · cases h4

/-- A block halted by StackUnderflow at 0x200. -/
def halted : State := (withWord 0x00EE).halt (some 0x00EE) .stackUnderflow

/-- The first instruction of a block at the last address a word can be fetched from. -/
def atTop (w : Word) : State := { placed 0xFFE (wordBytes w) with pc := 0xFFE }

/-! ### Encoding -/

theorem witness_EncodeOfDecodeKeepsReadBits : decode 0x512F = .ok (.seReg 1 2) ∧ encode (.seReg 1 2) ≠ 0x512F := ⟨rfl, by decide⟩

theorem witness_DecodeFollowsOpcodeMap :
    decode 0xFFFF = .error (.illegalInstruction 0xFFFF) ∧ decode 0xEFA1 = .ok (.sknp 0xF) := ⟨rfl, rfl⟩

/-- `DecodesAs`: every row of the opcode map covers a word. -/
theorem witness_DecodesAs : ∀ r ∈ opcodeMap, r.value &&& r.mask = r.value := by decide

/-! ### Display -/

/-- Both ends of the ranges: the last sprite that fits, and the empty one at the last byte. -/
theorem witness_DrawSpriteResult :
    (∃ (s : State) (n : Nibble), n = 15 ∧ s.i.toNat < 4096 ∧ s.i.toNat + n.toNat = 4096) ∧
    (∃ (s : State) (n : Nibble), n = 0 ∧ s.i.toNat = 4095 ∧ s.i.toNat + n.toNat ≤ 4096) :=
  ⟨⟨{ State.reset with i := 0xFF1 }, 15, by decide⟩, ⟨{ State.reset with i := 0xFFF }, 0, by decide⟩⟩

/-- A covered cell that is set, a covered cell that is clear, and one that is not covered. -/
theorem witness_DrawSpriteResult_cells :
    let s := setCell 60 0 (sprite 0xD011 [0xFF] 60 0 true)
    (SpriteCovers s 60 0 1 60 0 ∧ s.pixel 60 0 = true) ∧ (SpriteCovers s 60 0 1 3 0 ∧ s.pixel 3 0 = false) ∧
      ¬ SpriteCovers s 60 0 1 4 0 := by
  refine ⟨⟨⟨0, by decide, 0, by decide, by decide, ?_⟩, by decide⟩, ⟨⟨0, by decide, 7, by decide, by decide, ?_⟩, by decide⟩, ?_⟩
  · exact ⟨rfl, rfl⟩
  · exact ⟨rfl, rfl⟩
  · rintro ⟨k, hk, b, hb, -, hc, -⟩
    change (60 + b) % 64 = 4 at hc
    omega

/-- A state the `VF = 0` clause of the draw applies to: no covered cell is set. -/
theorem witness_DrawSpriteResult_noCollision :
    ∃ s : State, ∀ c r, SpriteCovers s (s.reg 0).toNat (s.reg 1).toNat 1 c r → s.pixel c r = false :=
  ⟨sprite 0xD011 [0xFF] 60 0 false, fun c r _ => Display.cell_clear c r⟩

theorem witness_DrawTwiceRestoresScreen : ∃ s t u : State, s.i.toNat < 4096 ∧ s.i.toNat + (1 : Nibble).toNat ≤ 4096 ∧
    exec (.drw 0 1 1) s = .next t ∧ t.reg 0 = s.reg 0 ∧ t.reg 1 = s.reg 1 ∧ exec (.drw 0 1 1) t = .next u :=
  let s := sprite 0xD011 [0xFF] 60 0 true
  let t := nextOr s (exec (.drw 0 1 1) s)
  ⟨s, t, nextOr t (exec (.drw 0 1 1) t), by decide, by decide, eq_next_of s (by decide), by decide, by decide, eq_next_of t (by decide)⟩

/-! ### Control transfer -/

/-- An unbounded stack, and a finite one with one place left. -/
theorem witness_CallResult :
    (∃ s : State, s.params.stackDepth ≠ some s.stack.length) ∧
    (∃ s : State, s.params.stackDepth = some 16 ∧ s.stack.length = 15 ∧ s.params.stackDepth ≠ some s.stack.length) :=
  ⟨⟨State.reset, by decide⟩, ⟨{ State.reset with stack := List.replicate 15 0x202, params := { Params.default with stackDepth := some 16 } }, by decide⟩⟩

theorem witness_ReturnResult : ∃ (s : State) (rest : List Word) (a : Word), s.stack = rest ++ [a] :=
  ⟨{ State.reset with stack := [0x206] }, [], 0x206, rfl⟩

theorem witness_ReturnUndoesCall : ∃ s t : State, s.params.stackDepth ≠ some s.stack.length ∧ exec (.call 0x300) s = .next t :=
  ⟨State.reset, _, by decide, rfl⟩

/-- A taken skip inside memory, an untaken one, and a taken one that leaves `pc` at 0x1000 (T-C14). -/
theorem witness_SkipMovesPcByFourOrTwo :
    (Fetches (withWord 0x3300) 0x3300 (.seImm 3 0) ∧ skipCondition (withWord 0x3300) (.seImm 3 0) = some true) ∧
    (Fetches (withWord 0x4300) 0x4300 (.sneImm 3 0) ∧ skipCondition (withWord 0x4300) (.sneImm 3 0) = some false) ∧
    (Fetches { placed 0xFFC [0x30, 0x00] with pc := 0xFFC } 0x3000 (.seImm 0 0) ∧
      nextIs (step { placed 0xFFC [0x30, 0x00] with pc := 0xFFC }) (·.pc == 0x1000) = true) :=
  ⟨⟨fetches_of_check (by decide), by decide⟩, ⟨fetches_of_check (by decide), by decide⟩, ⟨fetches_of_check (by decide), by decide⟩⟩

theorem witness_PcFollowsTheTable : ∃ s t : State, Fetches s 0xBFFF (.jpV0 0xFFF) ∧ step s = .next t ∧ t.status = .running ∧ t.pc = 0x10FE :=
  let s := (withWord 0xBFFF).setReg 0 0xFF
  ⟨s, nextOr s (step s), fetches_of_check (by decide), eq_next_of s (by decide), by decide, by decide⟩

/-- The lowest targets that fault at the next fetch, and the highest below them that does not (the clauses of JumpResult). -/
theorem witness_JumpResult : State.reset.status = .running ∧
    (∃ (nnn : Addr12) (s : State), s.status = .running ∧ nnn.toNat + (s.reg 0).toNat = 0xFFF ∧ nnn ≠ 0xFFF) ∧
    (∃ (nnn : Addr12) (s : State), s.status = .running ∧ nnn.toNat + (s.reg 0).toNat = 0xFFE) :=
  ⟨rfl, ⟨0xF00, State.reset.setReg 0 0xFF, by decide⟩, ⟨0xEFF, State.reset.setReg 0 0xFF, by decide⟩⟩

/-! ### Registers and arithmetic -/

/-- The result clauses of the flag writers ask `x ≠ 15`. -/
theorem witness_flagClauses : ∃ x : RegNo, x ≠ 15 := ⟨14, by decide⟩

theorem witness_FlagRegisterWriters : ∃ (s t : State) (w : Word) (i : Instr), Fetches s w i ∧ step s = .next t ∧ t.reg 15 ≠ s.reg 15 :=
  let s := regs 0xFF 1 0 (withWord 0x8124)
  ⟨s, nextOr s (step s), 0x8124, .addReg 1 2, fetches_of_check (by decide), eq_next_of s (by decide), by decide⟩

/-! ### Index register and memory -/

theorem witness_DecimalStoreResult : ∃ s : State, s.i.toNat + 3 = 4096 := ⟨{ State.reset with i := 0xFFD }, by decide⟩

/-- For BlockStoreResult and BlockLoadResult: all registers at the top of memory, and `V0` alone at its last byte. -/
theorem witness_BlockResults : (∃ (s : State) (x : RegNo), x = 15 ∧ s.i.toNat + (x.toNat + 1) = 4096) ∧
    (∃ (s : State) (x : RegNo), x = 0 ∧ s.i.toNat + (x.toNat + 1) = 4096) :=
  ⟨⟨{ State.reset with i := 0xFF0 }, 15, by decide⟩, ⟨{ State.reset with i := 0xFFF }, 0, by decide⟩⟩

/-- For BlockLoadUndoesStore and FetchSeesStores. -/
theorem witness_stores : ∃ (x : RegNo) (s t : State), 1 ≤ x.toNat ∧ s.i.toNat + (x.toNat + 1) ≤ 4096 ∧ exec (.storeRegs x) s = .next t :=
  let s := { regs 2 3 0 State.reset with i := 0xFFE }
  ⟨1, s, nextOr s (exec (.storeRegs 1) s), by decide, by decide, eq_next_of s (by decide)⟩

/-- One step for each clause: `I`, the stack, a pixel, a byte of memory by FX33 and by FX55. -/
theorem witness_EachPartHasItsWriters :
    nextIs (step (withWord 0xA300)) (fun t => t.i != 0) = true ∧
    nextIs (step (withWord 0x2210)) (fun t => t.stack != []) = true ∧
    nextIs (step (sprite 0xD011 [0xFF] 0 0 true)) (fun t => t.pixel 0 0 != false) = true ∧
    nextIs (step (regs 157 0 0 { withWord 0xF133 with i := 0xFFD })) (fun t => t.byte 0xFFF != 0) = true ∧
    nextIs (step (regs 157 0 0 { withWord 0xF155 with i := 0xFFE })) (fun t => t.byte 0xFFF != 0) = true := by decide

/-! ### Keyboard and timers -/

/-- The highest key index, with that key down and with it up. -/
theorem witness_KeySkipResult :
    (∃ (s : State) (x : RegNo) (k : Fin 16), (s.reg x).toNat = k.val ∧ k.val = 15 ∧ s.keys.down[k] = true) ∧
    (∃ (s : State) (x : RegNo) (k : Fin 16), (s.reg x).toNat = k.val ∧ k.val = 15 ∧ s.keys.down[k] = false) :=
  ⟨⟨holding 15 (State.reset.setReg 5 15), 5, 15, by decide⟩, ⟨State.reset.setReg 5 15, 5, 15, by decide⟩⟩

theorem witness_KeyWaitResult : (∃ (s : State) (k : Fin 16), s.keys.justPressed = some k) ∧
    (∃ (s : State) (k : Fin 16), Fetches s 0xF30A (.ldVxK 3) ∧ s.keys.justPressed = some k) ∧
    (∃ s : State, Fetches s 0xF30A (.ldVxK 3) ∧ s.keys.justPressed = none) :=
  ⟨⟨{ State.reset with keys := { State.reset.keys with justPressed := some 15 } }, 15, rfl⟩,
    ⟨{ atTop 0xF30A with keys := { State.reset.keys with justPressed := some 0 } }, 0, fetches_of_check (by decide), rfl⟩,
    ⟨atTop 0xF30A, fetches_of_check (by decide), rfl⟩⟩

/-- For TickResult, LoadResult, HostSettingsResult, StepAlwaysReturns and HaltedBlockAcceptsOnlyResetAndReads. -/
theorem witness_status : State.reset.status = .running ∧ halted.status ≠ .running ∧
    halted.status = .halted { addr := 0x200, word := some 0x00EE, cause := .stackUnderflow } := by decide

theorem witness_StepNeverTicks :
    nextIs (step ((withWord 0xF015).setReg 0 7)) (fun t => t.dt != 0) = true ∧
    nextIs (step ((withWord 0xF018).setReg 0 7)) (fun t => t.st != 0) = true := by decide

theorem witness_StepKeepsHostOwnedState : ∃ s t : State, step s = .next t :=
  ⟨withWord 0x1234, nextOr State.reset (step (withWord 0x1234)), eq_next_of _ (by decide)⟩

/-- The same state for all three clauses: 00E0 reads neither the keyboard nor the wrap mode. -/
theorem witness_UnreadPartsHaveNoInfluence : ∃ (i : Instr) (s t : State), exec i s = .next t ∧
    (∀ x, i ≠ .skp x ∧ i ≠ .sknp x ∧ i ≠ .ldVxK x) ∧ (∀ x y n, i ≠ .drw x y n) :=
  ⟨.cls, State.reset, _, rfl, fun _ => ⟨nofun, nofun, nofun⟩, fun _ _ _ => nofun⟩

/-! ### The step and its faults -/

/-- A word at 0x200, and one in the last two bytes of memory (T-D3). -/
theorem witness_StepRunsDecodedInstruction : Fetches (withWord 0x1234) 0x1234 (.jp 0x234) ∧ Fetches (atTop 0x6001) 0x6001 (.ldImm 0 1) :=
  ⟨fetches_of_check (by decide), fetches_of_check (by decide)⟩

/-- The first `pc` a fetch fails at, and an illegal word at the last `pc` it does not fail at. -/
theorem witness_FetchAndDecodeFaults :
    (∃ s : State, s.status = .running ∧ s.pc.toNat = 0xFFF) ∧
    (∃ (s : State) (w : Word), s.status = .running ∧ s.pc.toNat + 2 = 4096 ∧
      w.toNat = (s.byte s.pc.toNat).toNat * 256 + (s.byte (s.pc.toNat + 1)).toNat ∧ wordWellFormed w = false) :=
  ⟨⟨{ State.reset with pc := 0xFFF }, by decide⟩, ⟨atTop 0x8128, 0x8128, by decide⟩⟩

theorem witness_StackFaults :
    (Fetches (withWord 0x00EE) 0x00EE .ret ∧ (withWord 0x00EE).stack = []) ∧
    (∃ s : State, Fetches s 0x2300 (.call 0x300) ∧ s.params.stackDepth = some s.stack.length) :=
  ⟨⟨fetches_of_check (by decide), rfl⟩, ⟨{ withWord 0x2300 with params := { Params.default with stackDepth := some 0 } },
    fetches_of_check (by decide), rfl⟩⟩

/-- The empty sprite just outside memory, and a block one byte too long. -/
theorem witness_AccessOutOfRangeFaults :
    (∃ s : State, Fetches s 0xD000 (.drw 0 0 0) ∧ accessLength (.drw 0 0 0) = some 0 ∧ s.i.toNat = 4096) ∧
    (∃ s : State, Fetches s 0xFF55 (.storeRegs 15) ∧ accessLength (.storeRegs 15) = some 16 ∧ s.i.toNat + 16 = 4097) :=
  ⟨⟨{ withWord 0xD000 with i := 0x1000 }, fetches_of_check (by decide), rfl, by decide⟩,
    ⟨{ withWord 0xFF55 with i := 0xFF1 }, fetches_of_check (by decide), rfl, by decide⟩⟩

theorem witness_KeyIndexAboveFifteenFaults :
    ∃ s : State, Fetches s 0xE59E (.skp 5) ∧ keyRegister (.skp 5) = some 5 ∧ (s.reg 5).toNat = 16 :=
  ⟨(withWord 0xE59E).setReg 5 16, fetches_of_check (by decide), rfl, by decide⟩

/-- A fault with a word in its record and one without. -/
theorem witness_FaultsAreAtomicAndPrecise :
    nextIs (step (withWord 0x00EE)) (fun t => t.status != .running && (t.haltRecord.map (·.word)) == some (some 0x00EE)) = true ∧
    nextIs (step { State.reset with pc := 0xFFF }) (fun t => t.status != .running && (t.haltRecord.map (·.word)) == some none) = true := by decide

/-- A step into each code is a test above: test_illegal, test_ret_empty, test_fetch_top, test_drw_fault, test_call_full, test_skp_fault. -/
theorem witness_EveryFaultHasItsCause : ∃ (s t : State) (r : FaultRecord), step s = .next t ∧ t.status = .halted r ∧ r.code = 2 :=
  ⟨withWord 0x00EE, nextOr State.reset (step (withWord 0x00EE)), { addr := 0x200, word := some 0x00EE, cause := .stackUnderflow },
    eq_next_of _ (by decide), by decide, rfl⟩

/-! ### The host interface -/

theorem witness_ReadsReport : StepFaults (withWord 0x00EE) (some 0x00EE) .stackUnderflow := by
  rw [StepFaults, eq_next_of (o := step (withWord 0x00EE)) State.reset (by decide)]
  exact congrArg _ (by decide)

/-- The longest program LOAD accepts, and the shortest it refuses. -/
theorem witness_LoadResult : (∃ p : List Byte, p.length = 3584) ∧ (∃ p : List Byte, p.length = 3585) :=
  ⟨⟨List.replicate 3584 0, List.length_replicate⟩, ⟨List.replicate 3585 0, List.length_replicate⟩⟩

/-! ### The invariant -/

theorem reset_inv : State.reset.Inv where
  memCanonical := Memory.nil_wf _
  pcBound := by decide
  returnBound := nofun
  stackBound := nofun
  haltedAt := nofun

/-- For StepKeepsInvariant and CommandKeepsInvariant. -/
theorem witness_StepKeepsInvariant : ∃ s t : State, s.Inv ∧ step s = .next t ∧ Command.apply .step s = .next t :=
  ⟨State.reset, nextOr State.reset (step State.reset), reset_inv, eq_next_of _ (by decide), eq_next_of _ (by decide)⟩

theorem witness_Reachable : Reachable State.reset := ⟨Params.default, [], rfl⟩

end Sys2Proof.Machine.Tests
end

/-! PROOF. Where an instruction leaves `pc` (R26): the fetch the hypothesis `Fetches` stands for, the skips as one lemma, then the table case by case. -/

namespace Sys2Proof.Machine

/-! ## The step of a block that fetches an instruction -/

/-- The bytes at `pc` that `Fetches` names are the word the fetch reads (R56). -/
theorem Fetches.fetch_eq {s : State} {w : Word} {i : Instr} (h : Fetches s w i) : fetch s = .ok w :=
  fetch_ok_iff.2 ⟨h.inside, BitVec.eq_of_toNat_eq (by rw [toNat_wordOfBytes, h.bytes])⟩

theorem Fetches.step_eq {s : State} {w : Word} {i : Instr} (h : Fetches s w i) : step s = exec i s.advance :=
  step_of_decode h.running h.fetch_eq h.decodes

/-- A state in which the block runs is not what taking a fault leaves (R222). -/
theorem raise_ne_next_of_running {s t : State} (hrun : t.status = .running) (f : FaultCause) : raise f s ≠ .next t := by
  intro h
  rw [raise_eq_next.1 h] at hrun
  cases hrun

/-! ## The condition of a key skip (R206) -/

theorem skipCondition_skp {s : State} {x : RegNo} {k : Fin 16} (hk : (s.reg x).toNat = k.val) :
    skipCondition s (.skp x) = some (s.isDown k) := by
  simp [skipCondition, State.isDown, hk]

theorem skipCondition_sknp {s : State} {x : RegNo} {k : Fin 16} (hk : (s.reg x).toNat = k.val) :
    skipCondition s (.sknp x) = some (!s.isDown k) := by
  simp [skipCondition, State.isDown, hk]

/-! ## The table of R26 -/

/-- A skip's row of the table, from the post-fetch state: `pc + 2` when the condition holds, `pc` otherwise (R26, R137). -/
theorem pcAfter_of_skipCondition {s : State} {i : Instr} {c : Bool} (hc : skipCondition s i = some c) :
    pcAfter s i = (s.skipIf c).pc := by
  have hrow : pcAfter s i = if skipCondition s i = some true then s.pc + 2 else s.pc := by
    cases i with
    | jp | call | ret | jpV0 | ldVxK => cases hc
    | _ => rfl
  simp only [hrow, hc, State.skipIf_pc, Option.some.injEq]

/-- The popped entry is the table's value for 00EE (R130). -/
theorem pcAfter_ret {s : State} {rest : List Word} {a : Word} (hs : s.stack = rest ++ [a]) : pcAfter s .ret = a := by
  simp [pcAfter, hs]

/-- An instruction that raises no fault leaves in `pc` what the table gives from the post-fetch state (R26). -/
theorem exec_pc {i : Instr} {s t : State} (h : exec i s = .next t) (hrun : t.status = .running) :
    t.pc = pcAfter s i := by
  have hnf := raise_ne_next_of_running (s := s) hrun
  cases i with
  | ret =>
    obtain ⟨-, hf⟩ | ⟨rest, a, hs, rfl⟩ := execRet_cases h
    · exact (hnf _ hf).elim
    · exact (pcAfter_ret hs).symm
  | call =>
    obtain ⟨-, hf⟩ | ⟨-, rfl⟩ := execCall_cases h
    · exact (hnf _ hf).elim
    · rfl
  | ldVxK =>
    obtain ⟨hk, rfl⟩ | ⟨k, hk, rfl⟩ := execLdVxK_cases h <;> simp [pcAfter, hk]
  | skp =>
    obtain ⟨-, hf⟩ | ⟨k, hk, rfl⟩ := execSkp_cases h
    · exact (hnf _ hf).elim
    · exact (pcAfter_of_skipCondition (skipCondition_skp hk)).symm
  | sknp =>
    obtain ⟨-, hf⟩ | ⟨k, hk, rfl⟩ := execSknp_cases h
    · exact (hnf _ hf).elim
    · exact (pcAfter_of_skipCondition (skipCondition_sknp hk)).symm
  | seImm | sneImm | seReg | sneReg =>
    cases h
    exact (pcAfter_of_skipCondition rfl).symm
  | drw =>
    obtain ⟨-, hf⟩ | ⟨-, _, -, rfl⟩ := execDrw_cases h
    · exact (hnf _ hf).elim
    · rfl
  | ldB | storeRegs =>
    obtain ⟨-, hf⟩ | ⟨-, rfl⟩ := store_cases h
    · exact (hnf _ hf).elim
    · rfl
  | loadRegs =>
    obtain ⟨-, hf⟩ | ⟨-, rfl⟩ := execLoadRegs_cases h
    · exact (hnf _ hf).elim
    · rw [State.setRegsFrom_eq]; rfl
  | _ =>
    cases h
    rfl

/-- Settles O16: the step runs the decoded instruction on the post-fetch state, and `exec_pc` reads its row of the table. -/
theorem pcFollowsTheTable : Obligations.PcFollowsTheTable := by
  unfold Obligations.PcFollowsTheTable
  intro s t w i hf hstep hrun
  rw [hf.step_eq] at hstep
  exact exec_pc hstep hrun

end Sys2Proof.Machine

/-! PROOF. What a step runs (R82). -/

namespace Sys2Proof.Machine

/-- Settles O38: `Fetches.step_eq`, with the post-fetch state `s.advance` written out as `pc` two further on. -/
theorem stepRunsDecodedInstruction : Obligations.StepRunsDecodedInstruction := by
  unfold Obligations.StepRunsDecodedInstruction
  intro s w i hf
  calc step s = exec i s.advance := hf.step_eq
    _ = exec i { s with pc := s.pc + 2 } := by rw [State.advance]

end Sys2Proof.Machine

/-! PROOF. The effect of 00E0 (R111, R112). -/

namespace Sys2Proof.Machine

/-- The `x` nibble of a 00E0 word takes no part (R87): the family and `nn` that the mask fixes decide the row. -/
theorem decodesAs_cls : DecodesAs 0x00E0 0xF0FF (fun _ => .cls) := by
  intro w hw
  obtain ⟨hfamily, hnn⟩ : Word.family w = 0x0#4 ∧ Word.nn w = 0xE0#8 := family_nn_of_mask hw
  simp [decode, decodeFamily0, hfamily, hnn]

/-- 00E0 completes in every state. -/
theorem exec_cls (s : State) : exec .cls s = .next { s with disp := Display.clear } := rfl

/-- Replacing the grid changes no part of a state but its pixels. -/
theorem unchangedExcept_pixels_of_disp (s : State) (d : Display) :
    UnchangedExcept (fun p => ∃ c r, p = .pixel c r) s { s with disp := d } := by
  intro p hp
  cases p with
  | pixel c r => exact absurd ⟨c, r, rfl⟩ hp
  | _ => rfl

/-- Settles O6: 00E0 replaces the grid by the clear one, whose every cell is 0. -/
theorem clearScreenResult : Obligations.ClearScreenResult := by
  unfold Obligations.ClearScreenResult
  exact ⟨decodesAs_cls, fun s => ⟨_, exec_cls s, Display.cell_clear, unchangedExcept_pixels_of_disp s _⟩⟩

end Sys2Proof.Machine

/-! PROOF. The skips on a comparison of operands (R133 to R136): one lemma for the skip, one for a row that its family alone decides. -/

namespace Sys2Proof.Machine

/-! ## A skip, whatever its condition -/

/-- A skip, taken or not, changes no part of a state but `pc`. -/
theorem unchangedExcept_pc_skipIf (s : State) (c : Bool) : UnchangedExcept (· = .pc) s (s.skipIf c) := by
  intro p hp
  cases c with
  | false => cases p <;> rfl
  | true =>
    cases p with
    | pc => exact absurd rfl hp
    | _ => rfl

/-- An instruction that is a skip on `c` moves `pc` two further on exactly under the condition `P` that `c` decides. -/
theorem skip_result {i : Instr} {s : State} {c : Bool} {P : Prop} [Decidable P]
    (hexec : exec i s = .next (s.skipIf c)) (hc : c = true ↔ P) :
    ∃ t, exec i s = .next t ∧ t.pc = (if P then s.pc + 2 else s.pc) ∧ UnchangedExcept (· = .pc) s t := by
  refine ⟨s.skipIf c, hexec, ?_, unchangedExcept_pc_skipIf s c⟩
  simp only [State.skipIf_pc, hc]

/-! ## The four comparisons -/

theorem exec_seImm (x : RegNo) (nn : Byte) (s : State) : exec (.seImm x nn) s = .next (s.skipIf (s.reg x == nn)) := rfl

theorem exec_sneImm (x : RegNo) (nn : Byte) (s : State) : exec (.sneImm x nn) s = .next (s.skipIf (s.reg x != nn)) := rfl

theorem exec_seReg (x y : RegNo) (s : State) : exec (.seReg x y) s = .next (s.skipIf (s.reg x == s.reg y)) := rfl

theorem exec_sneReg (x y : RegNo) (s : State) : exec (.sneReg x y) s = .next (s.skipIf (s.reg x != s.reg y)) := rfl

/-! ## Their rows of the opcode map -/

/-- A row with mask 0xF000 is decided by its family alone; the other bits are operands or ignored (R86, R87). -/
theorem decodesAs_of_family {value : Word} {instr : Word → Instr}
    (h : ∀ w, Word.family w = Word.family value → decode w = .ok (instr w)) : DecodesAs value 0xF000 instr :=
  fun w hw => h w (family_of_mask hw)

theorem decodesAs_seImm : DecodesAs 0x3000 0xF000 (fun w => .seImm (Word.x w) (Word.nn w)) :=
  decodesAs_of_family fun w (hf : Word.family w = 0x3#4) => by simp only [decode, hf]

theorem decodesAs_sneImm : DecodesAs 0x4000 0xF000 (fun w => .sneImm (Word.x w) (Word.nn w)) :=
  decodesAs_of_family fun w (hf : Word.family w = 0x4#4) => by simp only [decode, hf]

theorem decodesAs_seReg : DecodesAs 0x5000 0xF000 (fun w => .seReg (Word.x w) (Word.y w)) :=
  decodesAs_of_family fun w (hf : Word.family w = 0x5#4) => by simp only [decode, hf]

theorem decodesAs_sneReg : DecodesAs 0x9000 0xF000 (fun w => .sneReg (Word.x w) (Word.y w)) :=
  decodesAs_of_family fun w (hf : Word.family w = 0x9#4) => by simp only [decode, hf]

/-- Settles O13: each word's family decides its row, and each instruction is a skip on the comparison of `Vx` with `nn`. -/
theorem skipOnImmediateResult : Obligations.SkipOnImmediateResult := by
  unfold Obligations.SkipOnImmediateResult
  exact ⟨decodesAs_seImm, decodesAs_sneImm, fun x nn s =>
    ⟨skip_result (exec_seImm x nn s) beq_iff_eq, skip_result (exec_sneImm x nn s) bne_iff_ne⟩⟩

/-- Settles O14: the family alone decides each row, so bits 3:0 take no part, and each instruction is a skip on the comparison of `Vx` with `Vy`. -/
theorem skipOnRegistersResult : Obligations.SkipOnRegistersResult := by
  unfold Obligations.SkipOnRegistersResult
  exact ⟨decodesAs_seReg, decodesAs_sneReg, fun x y s =>
    ⟨skip_result (exec_seReg x y s) beq_iff_eq, skip_result (exec_sneReg x y s) bne_iff_ne⟩⟩

end Sys2Proof.Machine

/-! PROOF. The writers of `Vx` alone (R151 to R156): one lemma for the write of one register, one for a row of family 0x8 that its `n` decides. -/

namespace Sys2Proof.Machine

/-! ## A write of one register, whatever the value -/

/-- A register write changes no part of a state but that register; with `k` other than 15 it keeps `VF` (R22). -/
theorem unchangedExcept_reg_setReg (s : State) (k : RegNo) (b : Byte) : UnchangedExcept (· = .reg k) s (s.setReg k b) := by
  intro p hp
  cases p with
  | reg j =>
    have hj : j ≠ k := fun e => hp (congrArg Part.reg e)
    simp only [Part.same, State.reg_setReg, if_neg hj]
  | _ => rfl

/-- An instruction that is the write of `b` to `Vx` leaves `b` there and everything else as it was. -/
theorem setReg_result {i : Instr} {s : State} {x : RegNo} {b : Byte} (hexec : exec i s = .next (s.setReg x b)) :
    ∃ t, exec i s = .next t ∧ t.reg x = b ∧ UnchangedExcept (· = .reg x) s t :=
  ⟨s.setReg x b, hexec, State.reg_setReg_same s x b, unchangedExcept_reg_setReg s x b⟩

/-! ## The values written -/

theorem exec_ldImm (x : RegNo) (nn : Byte) (s : State) : exec (.ldImm x nn) s = .next (s.setReg x nn) := rfl

/-- 7XNN writes the sum of bytes, which discards the carry (R152). -/
theorem exec_addImm (x : RegNo) (nn : Byte) (s : State) : exec (.addImm x nn) s = .next (s.setReg x (s.reg x + nn)) :=
  calc exec (.addImm x nn) s = .next (s.setReg x (wrappingAdd (s.reg x) nn)) := rfl
    _ = .next (s.setReg x (s.reg x + nn)) := by rw [wrappingAdd_eq]

theorem exec_ldReg (x y : RegNo) (s : State) : exec (.ldReg x y) s = .next (s.setReg x (s.reg y)) := rfl

theorem exec_orReg (x y : RegNo) (s : State) : exec (.orReg x y) s = .next (s.setReg x (s.reg x ||| s.reg y)) := rfl

theorem exec_andReg (x y : RegNo) (s : State) : exec (.andReg x y) s = .next (s.setReg x (s.reg x &&& s.reg y)) := rfl

theorem exec_xorReg (x y : RegNo) (s : State) : exec (.xorReg x y) s = .next (s.setReg x (s.reg x ^^^ s.reg y)) := rfl

/-! ## Their rows of the opcode map -/

theorem decodesAs_ldImm : DecodesAs 0x6000 0xF000 (fun w => .ldImm (Word.x w) (Word.nn w)) :=
  decodesAs_of_family fun w (hf : Word.family w = 0x6#4) => by simp only [decode, hf]

theorem decodesAs_addImm : DecodesAs 0x7000 0xF000 (fun w => .addImm (Word.x w) (Word.nn w)) :=
  decodesAs_of_family fun w (hf : Word.family w = 0x7#4) => by simp only [decode, hf]

/-- In family 0x8 the mask 0xF00F leaves the choice of the row to `n` (R86, R88). -/
theorem decodesAs_of_family8 {value : Word} {instr : Word → Instr} (hvalue : Word.family value = 0x8#4)
    (h : ∀ w, Word.n w = Word.n value → decodeFamily8 w = .ok (instr w)) : DecodesAs value 0xF00F instr := by
  intro w hw
  obtain ⟨hfamily, hn⟩ := family_n_of_mask hw
  calc decode w = decodeFamily8 w := by simp only [decode, hfamily, hvalue]
    _ = .ok (instr w) := h w hn

theorem decodesAs_ldReg : DecodesAs 0x8000 0xF00F (fun w => .ldReg (Word.x w) (Word.y w)) :=
  decodesAs_of_family8 rfl fun w (hn : Word.n w = 0x0#4) => by simp only [decodeFamily8, hn]

theorem decodesAs_orReg : DecodesAs 0x8001 0xF00F (fun w => .orReg (Word.x w) (Word.y w)) :=
  decodesAs_of_family8 rfl fun w (hn : Word.n w = 0x1#4) => by simp only [decodeFamily8, hn]

theorem decodesAs_andReg : DecodesAs 0x8002 0xF00F (fun w => .andReg (Word.x w) (Word.y w)) :=
  decodesAs_of_family8 rfl fun w (hn : Word.n w = 0x2#4) => by simp only [decodeFamily8, hn]

theorem decodesAs_xorReg : DecodesAs 0x8003 0xF00F (fun w => .xorReg (Word.x w) (Word.y w)) :=
  decodesAs_of_family8 rfl fun w (hn : Word.n w = 0x3#4) => by simp only [decodeFamily8, hn]

/-- Settles O17: each instruction is a write of `Vx`, of `nn` or of the byte sum, whose value is the sum modulo 256. -/
theorem immediateRegisterResult : Obligations.ImmediateRegisterResult := by
  unfold Obligations.ImmediateRegisterResult
  refine ⟨decodesAs_ldImm, decodesAs_addImm, fun x nn s => ⟨setReg_result (exec_ldImm x nn s), ?_⟩⟩
  obtain ⟨t, hexec, hreg, hframe⟩ := setReg_result (exec_addImm x nn s)
  have hsum : (t.reg x).toNat = ((s.reg x).toNat + nn.toNat) % 256 := by rw [hreg, BitVec.toNat_add]
  exact ⟨t, hexec, hsum, hframe⟩

/-- Settles O18: `n` decides each row of family 0x8, and each instruction is a write of `Vx`, so `VF` stays unless it is `Vx`. -/
theorem logicRegisterResult : Obligations.LogicRegisterResult := by
  unfold Obligations.LogicRegisterResult
  exact ⟨decodesAs_ldReg, decodesAs_orReg, decodesAs_andReg, decodesAs_xorReg, fun x y s =>
    ⟨setReg_result (exec_ldReg x y s), setReg_result (exec_orReg x y s),
      setReg_result (exec_andReg x y s), setReg_result (exec_xorReg x y s)⟩⟩

end Sys2Proof.Machine

/-! PROOF. The writers of `I` alone (R180 to R182): one lemma for the write of `I`, one for a row of family 0xF that its `nn` decides. -/

namespace Sys2Proof.Machine

/-! ## A write of `I`, whatever the value -/

/-- A write of `I` changes no part of a state but `I`. -/
theorem unchangedExcept_index_of_i (s : State) (a : Word) : UnchangedExcept (· = .index) s { s with i := a } := by
  intro p hp
  cases p with
  | index => exact absurd rfl hp
  | _ => rfl

/-- An instruction that is the write to `I` of a word with value `n` leaves `n` there and everything else as it was. -/
theorem index_result {i : Instr} {s : State} {a : Word} {n : Nat} (hexec : exec i s = .next { s with i := a })
    (ha : a.toNat = n) : ∃ t, exec i s = .next t ∧ t.i.toNat = n ∧ UnchangedExcept (· = .index) s t :=
  ⟨{ s with i := a }, hexec, ha, unchangedExcept_index_of_i s a⟩

/-! ## The values written -/

theorem exec_ldI (nnn : Addr12) (s : State) : exec (.ldI nnn) s = .next { s with i := addrOperand nnn } := rfl

theorem exec_addI (x : RegNo) (s : State) : exec (.addI x) s = .next { s with i := s.i + (s.reg x).setWidth 16 } := rfl

theorem exec_ldF (x : RegNo) (s : State) : exec (.ldF x) s = .next { s with i := glyphAddress (s.reg x) } := rfl

/-- Twelve bits fit in a word: the operand is the address itself (R85). -/
theorem toNat_addrOperand (nnn : Addr12) : (addrOperand nnn).toNat = nnn.toNat := by
  rw [addrOperand, BitVec.toNat_setWidth_of_le (by decide)]

/-- A byte added to a word: the sum wraps modulo 65536 (R181). -/
theorem toNat_word_add_byte (a : Word) (b : Byte) : (a + b.setWidth 16).toNat = (a.toNat + b.toNat) % 65536 := by
  rw [BitVec.toNat_add, BitVec.toNat_setWidth_of_le (by decide)]

/-- Five times a byte fits in a word, so the glyph address of any byte, not only of a digit, is exact (R182). -/
theorem toNat_glyphAddress (b : Byte) : (glyphAddress b).toNat = b.toNat * 5 := by
  have hfits : b.toNat * 5 < 2 ^ 16 := by
    have := b.isLt
    omega
  rw [glyphAddress, BitVec.toNat_ofNat, Nat.mod_eq_of_lt hfits]

/-! ## Their rows of the opcode map -/

theorem decodesAs_ldI : DecodesAs 0xA000 0xF000 (fun w => .ldI (Word.nnn w)) :=
  decodesAs_of_family fun w (hf : Word.family w = 0xA#4) => by simp only [decode, hf]

/-- In family 0xF the mask 0xF0FF leaves the choice of the row to `nn` (R86, R88). -/
theorem decodesAs_of_familyF {value : Word} {instr : Word → Instr} (hvalue : Word.family value = 0xF#4)
    (h : ∀ w, Word.nn w = Word.nn value → decodeFamilyF w = .ok (instr w)) : DecodesAs value 0xF0FF instr := by
  intro w hw
  obtain ⟨hfamily, hnn⟩ := family_nn_of_mask hw
  calc decode w = decodeFamilyF w := by simp only [decode, hfamily, hvalue]
    _ = .ok (instr w) := h w hnn

theorem decodesAs_addI : DecodesAs 0xF01E 0xF0FF (fun w => .addI (Word.x w)) :=
  decodesAs_of_familyF rfl fun w (hnn : Word.nn w = 0x1E#8) => by simp only [decodeFamilyF, hnn]

theorem decodesAs_ldF : DecodesAs 0xF029 0xF0FF (fun w => .ldF (Word.x w)) :=
  decodesAs_of_familyF rfl fun w (hnn : Word.nn w = 0x29#8) => by simp only [decodeFamilyF, hnn]

/-- Settles O24: each instruction is a write of `I`, of the operand itself, of the sum modulo 65536, or of the glyph address, which never wraps. -/
theorem indexRegisterResult : Obligations.IndexRegisterResult := by
  unfold Obligations.IndexRegisterResult
  exact ⟨decodesAs_ldI, decodesAs_addI, decodesAs_ldF, fun nnn x s =>
    ⟨index_result (exec_ldI nnn s) (toNat_addrOperand nnn), index_result (exec_addI x s) (toNat_word_add_byte s.i (s.reg x)),
      index_result (exec_ldF x s) (toNat_glyphAddress (s.reg x))⟩⟩

end Sys2Proof.Machine

/-! PROOF. The timer instructions (R202, R204, R205): FX07 is a write of `Vx`, FX15 and FX18 are writes of one timer each. -/

namespace Sys2Proof.Machine

/-! ## A write of one timer, whatever the value -/

/-- A write of `DT` changes no part of a state but `DT`. -/
theorem unchangedExcept_dt_of_dt (s : State) (b : Byte) : UnchangedExcept (· = .dt) s { s with dt := b } := by
  intro p hp
  cases p with
  | dt => exact absurd rfl hp
  | _ => rfl

/-- A write of `ST` changes no part of a state but `ST`. -/
theorem unchangedExcept_st_of_st (s : State) (b : Byte) : UnchangedExcept (· = .st) s { s with st := b } := by
  intro p hp
  cases p with
  | st => exact absurd rfl hp
  | _ => rfl

/-- The sound output is on exactly while `ST` is not 0 (R233). -/
theorem State.soundOn_iff (s : State) : s.soundOn = true ↔ s.st ≠ 0 := bne_iff_ne

/-- A tick takes one off `DT` and stops it at 0 (R230, R231). -/
theorem State.toNat_tick_dt (s : State) : s.tick.dt.toNat = s.dt.toNat - 1 := by
  rw [State.tick_dt, countDown_toNat]

/-! ## The values written -/

theorem exec_ldVxDt (x : RegNo) (s : State) : exec (.ldVxDt x) s = .next (s.setReg x s.dt) := rfl

theorem exec_ldDtVx (x : RegNo) (s : State) : exec (.ldDtVx x) s = .next { s with dt := s.reg x } := rfl

theorem exec_ldStVx (x : RegNo) (s : State) : exec (.ldStVx x) s = .next { s with st := s.reg x } := rfl

/-! ## Their rows of the opcode map -/

theorem decodesAs_ldVxDt : DecodesAs 0xF007 0xF0FF (fun w => .ldVxDt (Word.x w)) :=
  decodesAs_of_familyF rfl fun w (hnn : Word.nn w = 0x07#8) => by simp only [decodeFamilyF, hnn]

theorem decodesAs_ldDtVx : DecodesAs 0xF015 0xF0FF (fun w => .ldDtVx (Word.x w)) :=
  decodesAs_of_familyF rfl fun w (hnn : Word.nn w = 0x15#8) => by simp only [decodeFamilyF, hnn]

theorem decodesAs_ldStVx : DecodesAs 0xF018 0xF0FF (fun w => .ldStVx (Word.x w)) :=
  decodesAs_of_familyF rfl fun w (hnn : Word.nn w = 0x18#8) => by simp only [decodeFamilyF, hnn]

/-! ## The instructions -/

/-- An FX07 in any state leaves that state's `DT` in its register, so one right after an FX15 reads back what was written (R204). -/
theorem exec_ldVxDt_reads_dt (z : RegNo) (s : State) : ∃ u, exec (.ldVxDt z) s = .next u ∧ u.reg z = s.dt :=
  ⟨s.setReg z s.dt, exec_ldVxDt z s, State.reg_setReg_same s z s.dt⟩

/-- FX15: `DT` is `Vx`, the next tick counts from `Vx`, and the next FX07 reads `Vx` back (R204). -/
theorem ldDtVx_result (x : RegNo) (s : State) :
    ∃ t, exec (.ldDtVx x) s = .next t ∧ t.dt = s.reg x ∧ UnchangedExcept (· = .dt) s t ∧
      t.tick.dt.toNat = (s.reg x).toNat - 1 ∧ ∀ z, ∃ u, exec (.ldVxDt z) t = .next u ∧ u.reg z = s.reg x :=
  ⟨{ s with dt := s.reg x }, exec_ldDtVx x s, rfl, unchangedExcept_dt_of_dt s _, State.toNat_tick_dt _,
    fun z => exec_ldVxDt_reads_dt z _⟩

/-- FX18: `ST` is `Vx`, and the sound output follows it (R205, R233). -/
theorem ldStVx_result (x : RegNo) (s : State) :
    ∃ t, exec (.ldStVx x) s = .next t ∧ t.st = s.reg x ∧ UnchangedExcept (· = .st) s t ∧
      (t.soundOn = true ↔ s.reg x ≠ 0) :=
  ⟨{ s with st := s.reg x }, exec_ldStVx x s, rfl, unchangedExcept_st_of_st s _, State.soundOn_iff _⟩

/-- Settles O33: `nn` decides each row of family 0xF; FX07 is a write of `Vx`, FX15 and FX18 are writes of one timer, and the tick, the FX07 that follows and the sound output read what was written. -/
theorem timerInstructionResult : Obligations.TimerInstructionResult := by
  unfold Obligations.TimerInstructionResult
  exact ⟨decodesAs_ldVxDt, decodesAs_ldDtVx, decodesAs_ldStVx, fun x s =>
    ⟨setReg_result (exec_ldVxDt x s), ldDtVx_result x s, ldStVx_result x s⟩⟩

end Sys2Proof.Machine

/-! PROOF. The timer tick (R230, R231): TICK is a countdown of both timers in a running block, and no transition of a block that is not running (R238). -/

namespace Sys2Proof.Machine

/-! ## A command that a halted block does not accept -/

theorem whenRunning_of_running {s : State} (h : s.status = .running) (o : Host.Outcome State Fault Refusal) :
    whenRunning s o = o := by
  simp only [whenRunning, h]

theorem whenRunning_of_halted {s : State} {r : FaultRecord} (h : s.status = .halted r)
    (o : Host.Outcome State Fault Refusal) : whenRunning s o = .fault (.halted r) := by
  simp only [whenRunning, h]

/-- A block that is not running makes no transition, whatever the command would do in a running one (R238). -/
theorem whenRunning_ne_next {s : State} (h : s.status ≠ .running) (o : Host.Outcome State Fault Refusal) (t : State) :
    whenRunning s o ≠ .next t := by
  cases hs : s.status with
  | running => exact absurd hs h
  | halted r =>
    rw [whenRunning_of_halted hs]
    exact nofun

/-! ## The countdown of both timers -/

/-- A tick takes one off `ST` and stops it at 0 (R230, R231). -/
theorem State.toNat_tick_st (s : State) : s.tick.st.toNat = s.st.toNat - 1 := by
  rw [State.tick_st, countDown_toNat]

/-- A tick changes no part of a state but the two timers (R230). -/
theorem unchangedExcept_timers_tick (s : State) : UnchangedExcept (fun p => p = .dt ∨ p = .st) s s.tick := by
  intro p hp
  cases p with
  | dt => exact absurd (.inl rfl) hp
  | st => exact absurd (.inr rfl) hp
  | _ => rfl

/-! ## The command -/

theorem apply_tick (s : State) : Command.apply .tick s = whenRunning s (.next s.tick) := rfl

/-- TICK in a running block is the countdown of both timers (R230). -/
theorem apply_tick_of_running {s : State} (h : s.status = .running) : Command.apply .tick s = .next s.tick := by
  rw [apply_tick, whenRunning_of_running h]

/-- Settles O34: in a running block TICK is `State.tick`, which counts both timers down and keeps every other part; in any other block `whenRunning` answers no next state. -/
theorem tickResult : Obligations.TickResult := by
  unfold Obligations.TickResult
  intro s
  constructor
  · intro hrunning
    exact ⟨s.tick, apply_tick_of_running hrunning, State.toNat_tick_dt s, State.toNat_tick_st s, unchangedExcept_timers_tick s⟩
  · intro hhalted t
    rw [apply_tick]
    exact whenRunning_ne_next hhalted _ t

end Sys2Proof.Machine

/-! PROOF. The writers of the timers (R269): what a fault leaves in them, the instructions case by case, then the step. -/

namespace Sys2Proof.Machine

/-! ## Faults -/

/-- A raised fault commits nothing to the timers (R222). -/
theorem timers_of_raise {f : FaultCause} {s t : State} (h : raise f s = .next t) : t.dt = s.dt ∧ t.st = s.st := by
  rw [raise_eq_next.1 h]
  exact ⟨rfl, rfl⟩

/-! ## The instructions -/

/-- Only FX15 writes `DT` and only FX18 writes `ST`, and neither writes the other timer (R204, R205). -/
theorem exec_timers {i : Instr} {s t : State} (h : exec i s = .next t) :
    (t.dt = s.dt ∧ t.st = s.st) ∨ (∃ x, i = .ldDtVx x ∧ t.st = s.st) ∨ (∃ x, i = .ldStVx x ∧ t.dt = s.dt) := by
  cases i with
  | ldDtVx x =>
    cases h
    exact .inr (.inl ⟨x, rfl, rfl⟩)
  | ldStVx x =>
    cases h
    exact .inr (.inr ⟨x, rfl, rfl⟩)
  | ret =>
    obtain ⟨-, hf⟩ | ⟨_, _, -, rfl⟩ := execRet_cases h
    · exact .inl (timers_of_raise hf)
    · exact .inl ⟨rfl, rfl⟩
  | call =>
    obtain ⟨-, hf⟩ | ⟨-, rfl⟩ := execCall_cases h
    · exact .inl (timers_of_raise hf)
    · exact .inl ⟨rfl, rfl⟩
  | drw =>
    obtain ⟨-, hf⟩ | ⟨-, _, -, rfl⟩ := execDrw_cases h
    · exact .inl (timers_of_raise hf)
    · exact .inl ⟨rfl, rfl⟩
  | ldB | storeRegs =>
    obtain ⟨-, hf⟩ | ⟨-, rfl⟩ := store_cases h
    · exact .inl (timers_of_raise hf)
    · exact .inl ⟨rfl, rfl⟩
  | loadRegs =>
    obtain ⟨-, hf⟩ | ⟨-, rfl⟩ := execLoadRegs_cases h
    · exact .inl (timers_of_raise hf)
    · rw [State.setRegsFrom_eq]
      exact .inl ⟨rfl, rfl⟩
  | skp =>
    obtain ⟨-, hf⟩ | ⟨_, -, rfl⟩ := execSkp_cases h
    · exact .inl (timers_of_raise hf)
    · exact .inl ⟨State.skipIf_dt .., State.skipIf_st ..⟩
  | sknp =>
    obtain ⟨-, hf⟩ | ⟨_, -, rfl⟩ := execSknp_cases h
    · exact .inl (timers_of_raise hf)
    · exact .inl ⟨State.skipIf_dt .., State.skipIf_st ..⟩
  | ldVxK =>
    obtain ⟨-, rfl⟩ | ⟨_, -, rfl⟩ := execLdVxK_cases h
    · exact .inl ⟨rfl, rfl⟩
    · exact .inl ⟨rfl, rfl⟩
  | seImm | sneImm | seReg | sneReg =>
    cases h
    exact .inl ⟨State.skipIf_dt .., State.skipIf_st ..⟩
  | _ =>
    cases h
    exact .inl ⟨rfl, rfl⟩

/-! ## The step -/

/-- A running block whose fetched word decodes to `i` fetches `i`: the converse of `Fetches.fetch_eq` (R56, R81). -/
theorem fetches_of_fetch {s : State} {w : Word} {i : Instr} (hrun : s.status = .running) (hf : fetch s = .ok w)
    (hd : decode w = .ok i) : Fetches s w i := by
  obtain ⟨hinside, hw⟩ := fetch_ok_iff.1 hf
  exact ⟨hrun, hinside, by rw [hw, toNat_wordOfBytes], hd⟩

/-- A step raises a fault of its fetch or its decode, or runs an instruction that the block fetches (R81, R223). -/
theorem step_halts_or_fetches {s t : State} (h : step s = .next t) :
    (∃ w f, t = s.halt w f) ∨ ∃ w i, Fetches s w i ∧ exec i s.advance = .next t := by
  obtain ⟨hrun, ⟨-, rfl⟩ | ⟨w, hf, ⟨_, -, rfl⟩ | ⟨i, hd, hexec⟩⟩⟩ := step_cases h
  · exact .inl ⟨_, _, rfl⟩
  · exact .inl ⟨_, _, rfl⟩
  · exact .inr ⟨w, i, fetches_of_fetch hrun hf hd, hexec⟩

/-- Settles O35: a fault of the fetch or the decode keeps both timers, the advance of `pc` too, and `exec_timers` names the one writer of each. -/
theorem stepNeverTicks : Obligations.StepNeverTicks := by
  unfold Obligations.StepNeverTicks
  intro s t hstep
  obtain ⟨_, _, rfl⟩ | ⟨w, i, hfetch, hexec⟩ := step_halts_or_fetches hstep
  · exact ⟨fun hdt => absurd rfl hdt, fun hst => absurd rfl hst⟩
  · obtain ⟨hdt, hst⟩ | ⟨x, rfl, hst⟩ | ⟨x, rfl, hdt⟩ := exec_timers hexec
    · exact ⟨fun hne => absurd hdt hne, fun hne => absurd hst hne⟩
    · exact ⟨fun _ => ⟨w, x, hfetch⟩, fun hne => absurd hst hne⟩
    · exact ⟨fun hne => absurd hdt hne, fun _ => ⟨w, x, hfetch⟩⟩

end Sys2Proof.Machine

/-! PROOF. The encoding (R84 to R91): every row of the opcode map decodes to its instruction, and from the rows follow the round trips, the map and the table of illegal words. -/

namespace Sys2Proof.Machine

/-! ## The remaining rows of the opcode map -/

/-- In family 0x0 the mask 0xF0FF leaves the choice of the row to `nn`; the `x` nibble takes no part (R87). -/
theorem decodesAs_of_family0 {value : Word} {instr : Word → Instr} (hvalue : Word.family value = 0x0#4)
    (h : ∀ w, Word.nn w = Word.nn value → decodeFamily0 w = .ok (instr w)) : DecodesAs value 0xF0FF instr := by
  intro w hw
  obtain ⟨hfamily, hnn⟩ := family_nn_of_mask hw
  calc decode w = decodeFamily0 w := by simp only [decode, hfamily, hvalue]
    _ = .ok (instr w) := h w hnn

/-- In family 0xE the mask 0xF0FF leaves the choice of the row to `nn` (R86, R88). -/
theorem decodesAs_of_familyE {value : Word} {instr : Word → Instr} (hvalue : Word.family value = 0xE#4)
    (h : ∀ w, Word.nn w = Word.nn value → decodeFamilyE w = .ok (instr w)) : DecodesAs value 0xF0FF instr := by
  intro w hw
  obtain ⟨hfamily, hnn⟩ := family_nn_of_mask hw
  calc decode w = decodeFamilyE w := by simp only [decode, hfamily, hvalue]
    _ = .ok (instr w) := h w hnn

theorem decodesAs_ret : DecodesAs 0x00EE 0xF0FF (fun _ => .ret) :=
  decodesAs_of_family0 rfl fun w (hnn : Word.nn w = 0xEE#8) => by simp only [decodeFamily0, hnn]

theorem decodesAs_jp : DecodesAs 0x1000 0xF000 (fun w => .jp (Word.nnn w)) :=
  decodesAs_of_family fun w (hf : Word.family w = 0x1#4) => by simp only [decode, hf]

theorem decodesAs_call : DecodesAs 0x2000 0xF000 (fun w => .call (Word.nnn w)) :=
  decodesAs_of_family fun w (hf : Word.family w = 0x2#4) => by simp only [decode, hf]

theorem decodesAs_addReg : DecodesAs 0x8004 0xF00F (fun w => .addReg (Word.x w) (Word.y w)) :=
  decodesAs_of_family8 rfl fun w (hn : Word.n w = 0x4#4) => by simp only [decodeFamily8, hn]

theorem decodesAs_subReg : DecodesAs 0x8005 0xF00F (fun w => .subReg (Word.x w) (Word.y w)) :=
  decodesAs_of_family8 rfl fun w (hn : Word.n w = 0x5#4) => by simp only [decodeFamily8, hn]

theorem decodesAs_shr : DecodesAs 0x8006 0xF00F (fun w => .shr (Word.x w) (Word.y w)) :=
  decodesAs_of_family8 rfl fun w (hn : Word.n w = 0x6#4) => by simp only [decodeFamily8, hn]

theorem decodesAs_subnReg : DecodesAs 0x8007 0xF00F (fun w => .subnReg (Word.x w) (Word.y w)) :=
  decodesAs_of_family8 rfl fun w (hn : Word.n w = 0x7#4) => by simp only [decodeFamily8, hn]

theorem decodesAs_shl : DecodesAs 0x800E 0xF00F (fun w => .shl (Word.x w) (Word.y w)) :=
  decodesAs_of_family8 rfl fun w (hn : Word.n w = 0xE#4) => by simp only [decodeFamily8, hn]

theorem decodesAs_jpV0 : DecodesAs 0xB000 0xF000 (fun w => .jpV0 (Word.nnn w)) :=
  decodesAs_of_family fun w (hf : Word.family w = 0xB#4) => by simp only [decode, hf]

theorem decodesAs_rnd : DecodesAs 0xC000 0xF000 (fun w => .rnd (Word.x w) (Word.nn w)) :=
  decodesAs_of_family fun w (hf : Word.family w = 0xC#4) => by simp only [decode, hf]

theorem decodesAs_drw : DecodesAs 0xD000 0xF000 (fun w => .drw (Word.x w) (Word.y w) (Word.n w)) :=
  decodesAs_of_family fun w (hf : Word.family w = 0xD#4) => by simp only [decode, hf]

theorem decodesAs_skp : DecodesAs 0xE09E 0xF0FF (fun w => .skp (Word.x w)) :=
  decodesAs_of_familyE rfl fun w (hnn : Word.nn w = 0x9E#8) => by simp only [decodeFamilyE, hnn]

theorem decodesAs_sknp : DecodesAs 0xE0A1 0xF0FF (fun w => .sknp (Word.x w)) :=
  decodesAs_of_familyE rfl fun w (hnn : Word.nn w = 0xA1#8) => by simp only [decodeFamilyE, hnn]

theorem decodesAs_ldVxK : DecodesAs 0xF00A 0xF0FF (fun w => .ldVxK (Word.x w)) :=
  decodesAs_of_familyF rfl fun w (hnn : Word.nn w = 0x0A#8) => by simp only [decodeFamilyF, hnn]

theorem decodesAs_ldB : DecodesAs 0xF033 0xF0FF (fun w => .ldB (Word.x w)) :=
  decodesAs_of_familyF rfl fun w (hnn : Word.nn w = 0x33#8) => by simp only [decodeFamilyF, hnn]

theorem decodesAs_storeRegs : DecodesAs 0xF055 0xF0FF (fun w => .storeRegs (Word.x w)) :=
  decodesAs_of_familyF rfl fun w (hnn : Word.nn w = 0x55#8) => by simp only [decodeFamilyF, hnn]

theorem decodesAs_loadRegs : DecodesAs 0xF065 0xF0FF (fun w => .loadRegs (Word.x w)) :=
  decodesAs_of_familyF rfl fun w (hnn : Word.nn w = 0x65#8) => by simp only [decodeFamilyF, hnn]

/-! ## Decoding an encoded word -/

/-- An encoded word that lies in a row, and whose fields are the instruction's own, decodes to the instruction. -/
theorem decode_encode_of_row {value mask : Word} {instr : Word → Instr} {i : Instr} (hrow : DecodesAs value mask instr)
    (hmask : encode i &&& mask = value) (hfields : instr (encode i) = i) : decode (encode i) = .ok i := by
  rw [hrow _ hmask, hfields]

/-- Decoding undoes encoding: the encoder writes a word of the instruction's own row, and each field is read back from where it was written. -/
theorem decode_encode (i : Instr) : decode (encode i) = .ok i := by
  cases i with
  | cls => exact decode_encode_of_row decodesAs_cls (encodeXK_subKey_mask ..) rfl
  | ret => exact decode_encode_of_row decodesAs_ret (encodeXK_subKey_mask ..) rfl
  | jp nnn => exact decode_encode_of_row decodesAs_jp (encodeA_family_mask ..) (by simp [encode])
  | call nnn => exact decode_encode_of_row decodesAs_call (encodeA_family_mask ..) (by simp [encode])
  | seImm x nn => exact decode_encode_of_row decodesAs_seImm (encodeXK_family_mask ..) (by simp [encode])
  | sneImm x nn => exact decode_encode_of_row decodesAs_sneImm (encodeXK_family_mask ..) (by simp [encode])
  | seReg x y => exact decode_encode_of_row decodesAs_seReg (encodeXYN_family_mask ..) (by simp [encode])
  | ldImm x nn => exact decode_encode_of_row decodesAs_ldImm (encodeXK_family_mask ..) (by simp [encode])
  | addImm x nn => exact decode_encode_of_row decodesAs_addImm (encodeXK_family_mask ..) (by simp [encode])
  | ldReg x y => exact decode_encode_of_row decodesAs_ldReg (encodeXYN_subKey_mask ..) (by simp [encode])
  | orReg x y => exact decode_encode_of_row decodesAs_orReg (encodeXYN_subKey_mask ..) (by simp [encode])
  | andReg x y => exact decode_encode_of_row decodesAs_andReg (encodeXYN_subKey_mask ..) (by simp [encode])
  | xorReg x y => exact decode_encode_of_row decodesAs_xorReg (encodeXYN_subKey_mask ..) (by simp [encode])
  | addReg x y => exact decode_encode_of_row decodesAs_addReg (encodeXYN_subKey_mask ..) (by simp [encode])
  | subReg x y => exact decode_encode_of_row decodesAs_subReg (encodeXYN_subKey_mask ..) (by simp [encode])
  | shr x y => exact decode_encode_of_row decodesAs_shr (encodeXYN_subKey_mask ..) (by simp [encode])
  | subnReg x y => exact decode_encode_of_row decodesAs_subnReg (encodeXYN_subKey_mask ..) (by simp [encode])
  | shl x y => exact decode_encode_of_row decodesAs_shl (encodeXYN_subKey_mask ..) (by simp [encode])
  | sneReg x y => exact decode_encode_of_row decodesAs_sneReg (encodeXYN_family_mask ..) (by simp [encode])
  | ldI nnn => exact decode_encode_of_row decodesAs_ldI (encodeA_family_mask ..) (by simp [encode])
  | jpV0 nnn => exact decode_encode_of_row decodesAs_jpV0 (encodeA_family_mask ..) (by simp [encode])
  | rnd x nn => exact decode_encode_of_row decodesAs_rnd (encodeXK_family_mask ..) (by simp [encode])
  | drw x y n => exact decode_encode_of_row decodesAs_drw (encodeXYN_family_mask ..) (by simp [encode])
  | skp x => exact decode_encode_of_row decodesAs_skp (encodeXK_subKey_mask ..) (by simp [encode])
  | sknp x => exact decode_encode_of_row decodesAs_sknp (encodeXK_subKey_mask ..) (by simp [encode])
  | ldVxDt x => exact decode_encode_of_row decodesAs_ldVxDt (encodeXK_subKey_mask ..) (by simp [encode])
  | ldVxK x => exact decode_encode_of_row decodesAs_ldVxK (encodeXK_subKey_mask ..) (by simp [encode])
  | ldDtVx x => exact decode_encode_of_row decodesAs_ldDtVx (encodeXK_subKey_mask ..) (by simp [encode])
  | ldStVx x => exact decode_encode_of_row decodesAs_ldStVx (encodeXK_subKey_mask ..) (by simp [encode])
  | addI x => exact decode_encode_of_row decodesAs_addI (encodeXK_subKey_mask ..) (by simp [encode])
  | ldF x => exact decode_encode_of_row decodesAs_ldF (encodeXK_subKey_mask ..) (by simp [encode])
  | ldB x => exact decode_encode_of_row decodesAs_ldB (encodeXK_subKey_mask ..) (by simp [encode])
  | storeRegs x => exact decode_encode_of_row decodesAs_storeRegs (encodeXK_subKey_mask ..) (by simp [encode])
  | loadRegs x => exact decode_encode_of_row decodesAs_loadRegs (encodeXK_subKey_mask ..) (by simp [encode])

/-- Settles O1: `decode_encode`. -/
theorem decodeOfEncodeIsIdentity : Obligations.DecodeOfEncodeIsIdentity := by
  unfold Obligations.DecodeOfEncodeIsIdentity
  exact decode_encode

/-! ## Encoding a decoded word -/

/-- A word is its family and `nnn`. -/
theorem encodeA_fields (w : Word) : encodeA (Word.family w) (Word.nnn w) = w := by
  apply BitVec.eq_of_getLsbD_eq
  intro i hi
  simp only [encodeA, Word.family, Word.nnn, BitVec.getLsbD_append, BitVec.getLsbD_extractLsb']
  interval_cases i <;> simp

/-- A word is its family, `x` and `nn`. -/
theorem encodeXK_fields (w : Word) : encodeXK (Word.family w) (Word.x w) (Word.nn w) = w := by
  apply BitVec.eq_of_getLsbD_eq
  intro i hi
  simp only [encodeXK, Word.family, Word.x, Word.nn, BitVec.getLsbD_append, BitVec.getLsbD_extractLsb']
  interval_cases i <;> simp

/-- A word is its four nibbles. -/
theorem encodeXYN_fields (w : Word) : encodeXYN (Word.family w) (Word.x w) (Word.y w) (Word.n w) = w := by
  apply BitVec.eq_of_getLsbD_eq
  intro i hi
  simp only [encodeXYN, Word.family, Word.x, Word.y, Word.n, BitVec.getLsbD_append, BitVec.getLsbD_extractLsb']
  interval_cases i <;> simp

/-- Bits 11:8 set to 0, as 00E0 and 00EE encode them. -/
theorem encodeXK_fields_x_zero (w : Word) : encodeXK (Word.family w) 0 (Word.nn w) = w &&& 0xF0FF := by
  calc encodeXK (Word.family w) 0 (Word.nn w)
      = encodeXK (Word.family w) (Word.x w) (Word.nn w) &&& 0xF0FF := (encodeXK_subKey_mask ..).symm
    _ = w &&& 0xF0FF := by rw [encodeXK_fields]

/-- Bits 3:0 set to 0, as 5XY0 and 9XY0 encode them. -/
theorem encodeXYN_fields_n_zero (w : Word) : encodeXYN (Word.family w) (Word.x w) (Word.y w) 0 = w &&& 0xFFF0 := by
  apply BitVec.eq_of_getLsbD_eq
  intro i hi
  simp only [encodeXYN, Word.family, Word.x, Word.y, BitVec.getLsbD_and, BitVec.getLsbD_append, BitVec.getLsbD_extractLsb']
  interval_cases i <;> simp

/-- A format without ignored bits: the encoding is the word itself. -/
theorem encode_eq_and_readBits {w : Word} {i : Instr} (hbits : i.readBits = BitVec.allOnes 16) (h : encode i = w) :
    encode i = w &&& i.readBits := by
  rw [hbits, BitVec.and_allOnes, h]

theorem encodeA_of_family {w : Word} {f : Nibble} (hf : Word.family w = f) : encodeA f (Word.nnn w) = w :=
  hf ▸ encodeA_fields w

theorem encodeXK_of_family {w : Word} {f : Nibble} (hf : Word.family w = f) : encodeXK f (Word.x w) (Word.nn w) = w :=
  hf ▸ encodeXK_fields w

theorem encodeXK_of_family_nn {w : Word} {f : Nibble} {nn : Byte} (hf : Word.family w = f) (hnn : Word.nn w = nn) :
    encodeXK f (Word.x w) nn = w :=
  hf ▸ hnn ▸ encodeXK_fields w

theorem encodeXYN_of_family {w : Word} {f : Nibble} (hf : Word.family w = f) :
    encodeXYN f (Word.x w) (Word.y w) (Word.n w) = w :=
  hf ▸ encodeXYN_fields w

theorem encodeXYN_of_family_n {w : Word} {f n : Nibble} (hf : Word.family w = f) (hn : Word.n w = n) :
    encodeXYN f (Word.x w) (Word.y w) n = w :=
  hf ▸ hn ▸ encodeXYN_fields w

theorem encodeXK_x_zero_of_family_nn {w : Word} {f : Nibble} {nn : Byte} (hf : Word.family w = f) (hnn : Word.nn w = nn) :
    encodeXK f 0 nn = w &&& 0xF0FF :=
  hf ▸ hnn ▸ encodeXK_fields_x_zero w

theorem encodeXYN_n_zero_of_family {w : Word} {f : Nibble} (hf : Word.family w = f) :
    encodeXYN f (Word.x w) (Word.y w) 0 = w &&& 0xFFF0 :=
  hf ▸ encodeXYN_fields_n_zero w

theorem encode_of_decodeFamily0 {w : Word} {i : Instr} (hf : Word.family w = 0x0#4) (h : decodeFamily0 w = .ok i) :
    encode i = w &&& i.readBits := by
  unfold decodeFamily0 at h
  split at h
  case h_3 => cases h
  all_goals
    next hnn =>
    cases h
    exact encodeXK_x_zero_of_family_nn hf hnn

theorem encode_of_decodeFamily8 {w : Word} {i : Instr} (hf : Word.family w = 0x8#4) (h : decodeFamily8 w = .ok i) :
    encode i = w &&& i.readBits := by
  unfold decodeFamily8 at h
  split at h
  case h_10 => cases h
  all_goals
    next hn =>
    cases h
    exact encode_eq_and_readBits rfl (encodeXYN_of_family_n hf hn)

theorem encode_of_decodeFamilyE {w : Word} {i : Instr} (hf : Word.family w = 0xE#4) (h : decodeFamilyE w = .ok i) :
    encode i = w &&& i.readBits := by
  unfold decodeFamilyE at h
  split at h
  case h_3 => cases h
  all_goals
    next hnn =>
    cases h
    exact encode_eq_and_readBits rfl (encodeXK_of_family_nn hf hnn)

theorem encode_of_decodeFamilyF {w : Word} {i : Instr} (hf : Word.family w = 0xF#4) (h : decodeFamilyF w = .ok i) :
    encode i = w &&& i.readBits := by
  unfold decodeFamilyF at h
  split at h
  case h_10 => cases h
  all_goals
    next hnn =>
    cases h
    exact encode_eq_and_readBits rfl (encodeXK_of_family_nn hf hnn)

/-- The word an instruction was decoded from is its encoding, but for the bits its format ignores. -/
theorem encode_of_decode {w : Word} {i : Instr} (h : decode w = .ok i) : encode i = w &&& i.readBits := by
  unfold decode at h
  split at h
  case h_1 hf => exact encode_of_decodeFamily0 hf h
  case h_9 hf => exact encode_of_decodeFamily8 hf h
  case h_15 hf => exact encode_of_decodeFamilyE hf h
  case h_16 hf => exact encode_of_decodeFamilyF hf h
  case h_17 => cases h
  all_goals cases h
  case h_2.refl hf | h_3.refl hf | h_11.refl hf | h_12.refl hf => exact encode_eq_and_readBits rfl (encodeA_of_family hf)
  case h_6.refl hf | h_10.refl hf => exact encodeXYN_n_zero_of_family hf
  case h_14.refl hf => exact encode_eq_and_readBits rfl (encodeXYN_of_family hf)
  all_goals
    next hf => exact encode_eq_and_readBits rfl (encodeXK_of_family hf)

/-- Settles O2: `encode_of_decode`. -/
theorem encodeOfDecodeKeepsReadBits : Obligations.EncodeOfDecodeKeepsReadBits := by
  unfold Obligations.EncodeOfDecodeKeepsReadBits
  exact fun _ _ => encode_of_decode

/-! ## The opcode map decides -/

/-- Every instruction's word belongs to its row: the lemmas of `Laws.EncodingRow`, one for each constructor, as one statement. -/
theorem encode_row (i : Instr) : Laws.EncodingRow.Statement i := by
  cases i with
  | cls => exact Laws.EncodingRow.cls
  | ret => exact Laws.EncodingRow.ret
  | jp nnn => exact Laws.EncodingRow.jp nnn
  | call nnn => exact Laws.EncodingRow.call nnn
  | seImm x nn => exact Laws.EncodingRow.seImm x nn
  | sneImm x nn => exact Laws.EncodingRow.sneImm x nn
  | seReg x y => exact Laws.EncodingRow.seReg x y
  | ldImm x nn => exact Laws.EncodingRow.ldImm x nn
  | addImm x nn => exact Laws.EncodingRow.addImm x nn
  | ldReg x y => exact Laws.EncodingRow.ldReg x y
  | orReg x y => exact Laws.EncodingRow.orReg x y
  | andReg x y => exact Laws.EncodingRow.andReg x y
  | xorReg x y => exact Laws.EncodingRow.xorReg x y
  | addReg x y => exact Laws.EncodingRow.addReg x y
  | subReg x y => exact Laws.EncodingRow.subReg x y
  | shr x y => exact Laws.EncodingRow.shr x y
  | subnReg x y => exact Laws.EncodingRow.subnReg x y
  | shl x y => exact Laws.EncodingRow.shl x y
  | sneReg x y => exact Laws.EncodingRow.sneReg x y
  | ldI nnn => exact Laws.EncodingRow.ldI nnn
  | jpV0 nnn => exact Laws.EncodingRow.jpV0 nnn
  | rnd x nn => exact Laws.EncodingRow.rnd x nn
  | drw x y n => exact Laws.EncodingRow.drw x y n
  | skp x => exact Laws.EncodingRow.skp x
  | sknp x => exact Laws.EncodingRow.sknp x
  | ldVxDt x => exact Laws.EncodingRow.ldVxDt x
  | ldVxK x => exact Laws.EncodingRow.ldVxK x
  | ldDtVx x => exact Laws.EncodingRow.ldDtVx x
  | ldStVx x => exact Laws.EncodingRow.ldStVx x
  | addI x => exact Laws.EncodingRow.addI x
  | ldF x => exact Laws.EncodingRow.ldF x
  | ldB x => exact Laws.EncodingRow.ldB x
  | storeRegs x => exact Laws.EncodingRow.storeRegs x
  | loadRegs x => exact Laws.EncodingRow.loadRegs x

/-- No instruction ignores a bit that its row's mask fixes: only four formats ignore bits at all. -/
theorem readBits_and_mask {i : Instr} {r : OpcodeRow} (hr : r ∈ opcodeMap) (hm : r.mnemonic = i.mnemonic) :
    i.readBits &&& r.mask = r.mask := by
  cases i with
  | cls => exact (by decide : ∀ r ∈ opcodeMap, r.mnemonic = "CLS" → 0xF0FF#16 &&& r.mask = r.mask) r hr hm
  | ret => exact (by decide : ∀ r ∈ opcodeMap, r.mnemonic = "RET" → 0xF0FF#16 &&& r.mask = r.mask) r hr hm
  | seReg => exact (by decide : ∀ r ∈ opcodeMap, r.mnemonic = "SE_Vx__Vy" → 0xFFF0#16 &&& r.mask = r.mask) r hr hm
  | sneReg => exact (by decide : ∀ r ∈ opcodeMap, r.mnemonic = "SNE_Vx__Vy" → 0xFFF0#16 &&& r.mask = r.mask) r hr hm
  | _ => exact BitVec.allOnes_and

theorem OpcodeRow.covers_iff {r : OpcodeRow} {w : Word} : r.covers w = true ↔ w &&& r.mask = r.value := beq_iff_eq

/-- A word that decodes lies in its instruction's row. -/
theorem row_of_decode {w : Word} {i : Instr} (h : decode w = .ok i) :
    ∃ r ∈ opcodeMap, r.mnemonic = i.mnemonic ∧ r.covers w = true := by
  obtain ⟨r, hr, hm, hvalue⟩ := encode_row i
  refine ⟨r, hr, hm, OpcodeRow.covers_iff.2 ?_⟩
  calc w &&& r.mask = w &&& (i.readBits &&& r.mask) := by rw [readBits_and_mask hr hm]
    _ = encode i &&& r.mask := by rw [encode_of_decode h, BitVec.and_assoc]
    _ = r.value := hvalue

/-- Any two rows of the opcode map differ on a bit that both masks fix. -/
theorem opcodeMap_apart : opcodeMap.Pairwise (fun r r' => r.value &&& r'.mask ≠ r'.value &&& r.mask) := by decide

/-- No word lies in two rows (R86). -/
theorem row_unique {r r' : OpcodeRow} {w : Word} (hr : r ∈ opcodeMap) (hr' : r' ∈ opcodeMap) (h : r.covers w = true)
    (h' : r'.covers w = true) : r' = r := by
  have hpair : opcodeMap.Pairwise (fun r r' => r.covers w = true → r'.covers w = true → r' = r) := by
    refine opcodeMap_apart.imp fun {r r'} hapart h h' => absurd ?_ hapart
    rw [OpcodeRow.covers_iff] at h h'
    rw [← h, ← h', BitVec.and_assoc, BitVec.and_comm r.mask, BitVec.and_assoc]
  exact hpair.forall_of_forall_of_flip (fun _ _ _ _ => rfl) (hpair.imp fun heq h h' => (heq h' h).symm) hr hr' h h'

/-- Every word of every row decodes (R91): the rows' `DecodesAs` lemmas, one for each row. -/
theorem row_decodes {r : OpcodeRow} (hr : r ∈ opcodeMap) : ∃ instr, DecodesAs r.value r.mask instr := by
  have hall : opcodeMap.Forall fun r => ∃ instr, DecodesAs r.value r.mask instr :=
    ⟨⟨_, decodesAs_cls⟩, ⟨_, decodesAs_ret⟩, ⟨_, decodesAs_jp⟩, ⟨_, decodesAs_call⟩, ⟨_, decodesAs_seImm⟩, ⟨_, decodesAs_sneImm⟩,
      ⟨_, decodesAs_seReg⟩, ⟨_, decodesAs_ldImm⟩, ⟨_, decodesAs_addImm⟩, ⟨_, decodesAs_ldReg⟩, ⟨_, decodesAs_orReg⟩,
      ⟨_, decodesAs_andReg⟩, ⟨_, decodesAs_xorReg⟩, ⟨_, decodesAs_addReg⟩, ⟨_, decodesAs_subReg⟩, ⟨_, decodesAs_shr⟩,
      ⟨_, decodesAs_subnReg⟩, ⟨_, decodesAs_shl⟩, ⟨_, decodesAs_sneReg⟩, ⟨_, decodesAs_ldI⟩, ⟨_, decodesAs_jpV0⟩,
      ⟨_, decodesAs_rnd⟩, ⟨_, decodesAs_drw⟩, ⟨_, decodesAs_skp⟩, ⟨_, decodesAs_sknp⟩, ⟨_, decodesAs_ldVxDt⟩,
      ⟨_, decodesAs_ldVxK⟩, ⟨_, decodesAs_ldDtVx⟩, ⟨_, decodesAs_ldStVx⟩, ⟨_, decodesAs_addI⟩, ⟨_, decodesAs_ldF⟩,
      ⟨_, decodesAs_ldB⟩, ⟨_, decodesAs_storeRegs⟩, ⟨_, decodesAs_loadRegs⟩⟩
  exact List.forall_iff_forall_mem.1 hall r hr

/-- The only error of decode is the illegal word itself (R89). -/
theorem decode_error {w : Word} {e : DecodeError} (h : decode w = .error e) : e = .illegalInstruction w := by
  simp only [decode, decodeFamily0, decodeFamily8, decodeFamilyE, decodeFamilyF] at h
  split at h
  case h_1 | h_9 | h_15 | h_16 =>
    split at h <;> cases h
    rfl
  case h_17 =>
    cases h
    rfl
  all_goals cases h

/-- Settles O3: the row of a decoded word is its instruction's, no word lies in two rows, and every word of a row decodes. -/
theorem decodeFollowsOpcodeMap : Obligations.DecodeFollowsOpcodeMap := by
  unfold Obligations.DecodeFollowsOpcodeMap
  refine fun w => ⟨fun i hi => ?_, fun e he => ⟨decode_error he, fun r hr => ?_⟩⟩
  · obtain ⟨r, hr, hm, hw⟩ := row_of_decode hi
    exact ⟨r, hr, hm, hw, fun r' hr' hw' => row_unique hr hr' hw hw'⟩
  · obtain ⟨instr, hinstr⟩ := row_decodes hr
    by_contra hcovers
    have hok := hinstr w (OpcodeRow.covers_iff.1 (Bool.eq_true_of_not_eq_false hcovers))
    rw [he] at hok
    cases hok

/-! ## The table of illegal words -/

theorem toNat_family (w : Word) : (Word.family w).toNat = w.toNat / 4096 := by
  have := w.isLt
  rw [Word.family, BitVec.extractLsb'_toNat, Nat.shiftRight_eq_div_pow]
  omega

theorem toNat_nn (w : Word) : (Word.nn w).toNat = w.toNat % 256 := by
  rw [Word.nn, BitVec.extractLsb'_toNat, Nat.shiftRight_zero]

theorem toNat_n (w : Word) : (Word.n w).toNat = w.toNat % 16 := by
  rw [Word.n, BitVec.extractLsb'_toNat, Nat.shiftRight_zero]

/-- The table, by the fields of the word (R89). -/
theorem wordWellFormed_iff (w : Word) : wordWellFormed w = true ↔
    (Word.family w = 0x0 → Word.nn w ∈ [0xE0#8, 0xEE#8]) ∧
    (Word.family w = 0x8 → Word.n w ∉ [0x8#4, 0x9#4, 0xA#4, 0xB#4, 0xC#4, 0xD#4, 0xF#4]) ∧
    (Word.family w = 0xE → Word.nn w ∈ [0x9E#8, 0xA1#8]) ∧
    (Word.family w = 0xF → Word.nn w ∈ [0x07#8, 0x0A#8, 0x15#8, 0x18#8, 0x1E#8, 0x29#8, 0x33#8, 0x55#8, 0x65#8]) := by
  simp only [wordWellFormed, ← toNat_family, ← toNat_nn, ← toNat_n, BitVec.toNat_eq, List.mem_cons]
  split_ifs <;> simp [*]

theorem decodeFamily0_ok_iff (w : Word) : (∃ i, decodeFamily0 w = .ok i) ↔ Word.nn w ∈ [0xE0#8, 0xEE#8] := by
  unfold decodeFamily0
  split <;> simp_all

/-- The sub-keys of family 0x8, by what the table lists and by what it leaves (R88, R89). -/
theorem subKey8_mem_iff : ∀ n : Nibble, n ∈ [0x0#4, 0x1#4, 0x2#4, 0x3#4, 0x4#4, 0x5#4, 0x6#4, 0x7#4, 0xE#4] ↔
    n ∉ [0x8#4, 0x9#4, 0xA#4, 0xB#4, 0xC#4, 0xD#4, 0xF#4] := by decide

theorem decodeFamily8_ok_iff (w : Word) :
    (∃ i, decodeFamily8 w = .ok i) ↔ Word.n w ∉ [0x8#4, 0x9#4, 0xA#4, 0xB#4, 0xC#4, 0xD#4, 0xF#4] := by
  rw [← subKey8_mem_iff]
  unfold decodeFamily8
  split <;> simp_all

theorem decodeFamilyE_ok_iff (w : Word) : (∃ i, decodeFamilyE w = .ok i) ↔ Word.nn w ∈ [0x9E#8, 0xA1#8] := by
  unfold decodeFamilyE
  split <;> simp_all

theorem decodeFamilyF_ok_iff (w : Word) : (∃ i, decodeFamilyF w = .ok i) ↔
    Word.nn w ∈ [0x07#8, 0x0A#8, 0x15#8, 0x18#8, 0x1E#8, 0x29#8, 0x33#8, 0x55#8, 0x65#8] := by
  unfold decodeFamilyF
  split <;> simp_all

/-- The 16 families that `decode` names are all there are (R86). -/
theorem family_mem : ∀ f : Nibble, f ∈ [0x0#4, 0x1#4, 0x2#4, 0x3#4, 0x4#4, 0x5#4, 0x6#4, 0x7#4, 0x8#4, 0x9#4, 0xA#4, 0xB#4,
    0xC#4, 0xD#4, 0xE#4, 0xF#4] := by decide

/-- A word decodes exactly when the table of illegal words does not list it. -/
theorem decode_ok_iff (w : Word) : (∃ i, decode w = .ok i) ↔ wordWellFormed w = true := by
  rw [wordWellFormed_iff]
  unfold decode
  split
  case h_1 hf => simp [hf, decodeFamily0_ok_iff]
  case h_9 hf => simp [hf, decodeFamily8_ok_iff]
  case h_15 hf => simp [hf, decodeFamilyE_ok_iff]
  case h_16 hf => simp [hf, decodeFamilyF_ok_iff]
  case h_17 =>
    have hall := family_mem (Word.family w)
    simp_all
  all_goals
    next hf => simp [hf]

/-- Settles O4: `decode_ok_iff`. -/
theorem illegalWordsAreTheTables : Obligations.IllegalWordsAreTheTables := by
  unfold Obligations.IllegalWordsAreTheTables
  exact decode_ok_iff

/-- Settles O5: the words written out, each decoded by evaluation. -/
theorem sampleWordsDecode : Obligations.SampleWordsDecode := by
  unfold Obligations.SampleWordsDecode
  exact ⟨rfl, rfl, rfl, rfl, rfl, rfl, rfl, rfl, rfl, rfl⟩

end Sys2Proof.Machine

/-! PROOF. The faults of a step (R220 to R224): which causes halt a block, that each of them does, and that nothing else does. -/

namespace Sys2Proof.Machine

/-! ## An instruction raises its faults -/

theorem memRead_of_not_inRange {s : State} {a n : Nat} (h : 4096 ≤ a ∨ 4096 < a + n) :
    memRead s a n = .error (.outOfRange a n) :=
  memRead_error_iff.2 ⟨by omega, rfl⟩

theorem memWrite_of_not_inRange {s : State} {a : Nat} {ws : List Byte} (h : 4096 ≤ a ∨ 4096 < a + ws.length) :
    memWrite s a ws = .error (.outOfRange a ws.length) :=
  memWrite_error_iff.2 ⟨by omega, rfl⟩

theorem keyOperand_of_above_fifteen {s : State} {x : RegNo} (h : 15 < (s.reg x).toNat) :
    keyOperand s x = .error (.keyIndexOutOfRange (s.reg x)) :=
  keyOperand_error_iff.2 ⟨h, rfl⟩

theorem exec_ret_of_empty {s : State} (h : s.stack = []) : exec .ret s = raise .stackUnderflow s := by
  simp only [exec, execRet, (State.pop_eq_none_iff s).2 h]

theorem exec_call_of_full {nnn : Addr12} {s : State} (h : s.params.stackDepth = some s.stack.length) :
    exec (.call nnn) s = raise .stackOverflow s := by
  simp [exec, execCall, State.stackFull, h]

/-- DXYN, FX33, FX55 and FX65 check the whole span they access before anything else (R54, R183). -/
theorem exec_access_of_not_inRange {i : Instr} {s : State} {len : Nat} (hi : accessLength i = some len)
    (h : 4096 ≤ s.i.toNat ∨ 4096 < s.i.toNat + len) : exec i s = raise (.outOfRange s.i.toNat len) s := by
  cases i with
  | drw x y n =>
    cases hi
    simp only [exec, execDrw, State.base, memRead_of_not_inRange h]
  | ldB x =>
    cases hi
    have hw := memWrite_of_not_inRange (s := s) (ws := decimalDigits (s.reg x)) h
    simp only [exec, execLdB, State.base, hw, decimalDigits_length]
  | storeRegs x =>
    cases hi
    have hw := memWrite_of_not_inRange (s := s) (ws := blockOfRegs s x) (by rwa [blockOfRegs_length])
    simp only [exec, execStoreRegs, State.base, hw, blockOfRegs_length]
  | loadRegs x =>
    cases hi
    simp only [exec, execLoadRegs, State.base, blockLength, memRead_of_not_inRange h]
  | _ => cases hi

theorem exec_keySkip_of_above_fifteen {i : Instr} {s : State} {x : RegNo} (hi : keyRegister i = some x)
    (h : 15 < (s.reg x).toNat) : exec i s = raise (.keyIndexOutOfRange (s.reg x)) s := by
  cases i with
  | skp x =>
    cases hi
    simp only [exec, execSkp, keyOperand_of_above_fifteen h]
  | sknp x =>
    cases hi
    simp only [exec, execSknp, keyOperand_of_above_fifteen h]
  | _ => cases hi

/-- Under the condition of one of its faults an instruction raises it: the converse of the first half of `exec_cases`. -/
theorem exec_of_raises {i : Instr} {s : State} {f : FaultCause} (h : Raises i s f) : exec i s = raise f s := by
  obtain ⟨rfl, rfl, hs⟩ | ⟨nnn, rfl, rfl, hs⟩ | ⟨len, rfl, hi, hs⟩ | ⟨x, rfl, hi, hs⟩ := h
  · exact exec_ret_of_empty hs
  · exact exec_call_of_full hs
  · exact exec_access_of_not_inRange hi hs
  · exact exec_keySkip_of_above_fifteen hi hs

/-- The condition of a fault does not read `pc`, so it is the same before and after the fetch. -/
theorem raises_advance {i : Instr} {s : State} {f : FaultCause} : Raises i s.advance f ↔ Raises i s f := Iff.rfl

/-! ## What halts a block -/

/-- The faults of a step from `s`: of the fetch, of decode, of the instruction, with the word the record gets (R220, R221). -/
inductive Halts (s : State) : Option Word → FaultCause → Prop
  | outsideMemory : 0xFFF ≤ s.pc.toNat → Halts s none (.outOfRange s.pc.toNat 2)
  | illegalWord (w : Word) : fetch s = .ok w → wordWellFormed w = false → Halts s (some w) .illegalInstruction
  | raised (w : Word) (i : Instr) (f : FaultCause) : Fetches s w i → Raises i s f → Halts s (some w) f

theorem decode_error_iff (w : Word) : decode w = .error (.illegalInstruction w) ↔ wordWellFormed w = false := by
  rw [← Bool.not_eq_true, ← decode_ok_iff]
  cases h : decode w with
  | ok i => simp
  | error e => simp [decode_error h]

theorem stepFaults_of_fetch {s : State} (hrun : s.status = .running) (hpc : 0xFFF ≤ s.pc.toNat) :
    StepFaults s none (.outOfRange s.pc.toNat 2) := by
  have hf : fetch s = .error (.outOfRange s.pc.toNat 2) := fetch_error_iff.2 ⟨by omega, rfl⟩
  simp only [StepFaults, step, hrun, hf, State.halt]

theorem stepFaults_of_decode {s : State} {w : Word} (hrun : s.status = .running) (hf : fetch s = .ok w)
    (hw : wordWellFormed w = false) : StepFaults s (some w) .illegalInstruction := by
  simp only [StepFaults, step, hrun, hf, (decode_error_iff w).2 hw, State.halt]

theorem Fetches.stepFaults {s : State} {w : Word} {i : Instr} {f : FaultCause} (h : Fetches s w i) (hr : Raises i s f) :
    StepFaults s (some w) f := by
  rw [StepFaults, h.step_eq, exec_of_raises (raises_advance.2 hr), raise_advance h.fetch_eq]

/-- Each of the faults halts the block and commits nothing else (R222, R223). -/
theorem Halts.stepFaults {s : State} {word : Option Word} {f : FaultCause} (hrun : s.status = .running) (h : Halts s word f) :
    StepFaults s word f := by
  cases h with
  | outsideMemory hpc => exact stepFaults_of_fetch hrun hpc
  | illegalWord w hf hw => exact stepFaults_of_decode hrun hf hw
  | raised w i f hfetch hr => exact hfetch.stepFaults hr

/-- What a step that answers a next state did: it halted the block for one of the faults, or it completed the instruction the block fetches and the block still runs. -/
theorem step_halts_or_completes {s t : State} (h : step s = .next t) :
    (∃ word f, Halts s word f ∧ t = s.halt word f) ∨
    ∃ w i, Fetches s w i ∧ exec i s.advance = .next t ∧ t.status = .running := by
  obtain ⟨hrun, ⟨hpc, rfl⟩ | ⟨w, hf, ⟨e, he, rfl⟩ | ⟨i, hd, hexec⟩⟩⟩ := step_cases h
  · exact .inl ⟨_, _, .outsideMemory (by omega), rfl⟩
  · rw [decode_error he] at he
    exact .inl ⟨_, _, .illegalWord w hf ((decode_error_iff w).1 he), rfl⟩
  · have hfetch := fetches_of_fetch hrun hf hd
    obtain ⟨f, hr, rfl⟩ | hstatus := exec_cases hexec
    · refine .inl ⟨some w, f, .raised w i f hfetch hr, ?_⟩
      rw [State.fetchedWord, State.rewound_advance, hf]
    · exact .inr ⟨w, i, hfetch, hexec, hstatus.trans hrun⟩

/-- A step that leaves the block halted did so for one of the faults. -/
theorem halts_of_status {s t : State} (h : step s = .next t) (hstatus : t.status ≠ .running) :
    ∃ word f, Halts s word f ∧ t = s.halt word f := by
  obtain hhalts | ⟨_, _, -, -, hrun⟩ := step_halts_or_completes h
  · exact hhalts
  · exact absurd hrun hstatus

/-- The word of a fault record: none for a fetch outside memory, else the word at `pc` (R221). -/
theorem Halts.word {s : State} {word : Option Word} {f : FaultCause} (h : Halts s word f) :
    (word = none ∧ 0xFFF ≤ s.pc.toNat) ∨ ∃ w, word = some w ∧ fetch s = .ok w := by
  cases h with
  | outsideMemory hpc => exact .inl ⟨rfl, hpc⟩
  | illegalWord w hf => exact .inr ⟨w, rfl, hf⟩
  | raised w _ _ hfetch => exact .inr ⟨w, rfl, hfetch.fetch_eq⟩

/-- Settles O40: a fetch at 0xFFF or above fails, and an illegal word is what decode refuses. -/
theorem fetchAndDecodeFaults : Obligations.FetchAndDecodeFaults := by
  unfold Obligations.FetchAndDecodeFaults
  refine fun s hrun => ⟨stepFaults_of_fetch hrun, fun hinside w hbytes hw => stepFaults_of_decode hrun ?_ hw⟩
  exact fetch_ok_iff.2 ⟨hinside, BitVec.eq_of_toNat_eq (by rw [toNat_wordOfBytes, hbytes])⟩

/-- Settles O41: the two stack faults are among the causes an instruction raises. -/
theorem stackFaults : Obligations.StackFaults := by
  unfold Obligations.StackFaults
  exact fun s w => ⟨fun hfetch hs => hfetch.stepFaults (.inl ⟨rfl, rfl, hs⟩),
    fun nnn hfetch hs => hfetch.stepFaults (.inr (.inl ⟨nnn, rfl, rfl, hs⟩))⟩

/-- Settles O42: the range fault of an access is among the causes an instruction raises, and a fault commits nothing. -/
theorem accessOutOfRangeFaults : Obligations.AccessOutOfRangeFaults := by
  unfold Obligations.AccessOutOfRangeFaults
  exact fun s w i len hfetch hi hs => hfetch.stepFaults (.inr (.inr (.inl ⟨len, rfl, hi, hs⟩)))

/-- Settles O43: the key index fault is among the causes an instruction raises. -/
theorem keyIndexAboveFifteenFaults : Obligations.KeyIndexAboveFifteenFaults := by
  unfold Obligations.KeyIndexAboveFifteenFaults
  exact fun s w i x hfetch hi hs => hfetch.stepFaults (.inr (.inr (.inr ⟨x, rfl, hi, hs⟩)))

/-- Settles O44: a halted result is `State.halt` of the state before, and its word is the fetched one, if the fetch succeeded. -/
theorem faultsAreAtomicAndPrecise : Obligations.FaultsAreAtomicAndPrecise := by
  unfold Obligations.FaultsAreAtomicAndPrecise
  intro s t hstep hstatus
  obtain ⟨word, f, hhalts, rfl⟩ := halts_of_status hstep hstatus
  refine ⟨_, rfl, rfl, ?_, ?_⟩
  · obtain ⟨rfl, hpc⟩ | ⟨w, rfl, hf⟩ := hhalts.word
    · exact iff_of_true rfl hpc
    · have hinside := (fetch_ok_iff.1 hf).1
      exact iff_of_false nofun (by omega)
  · rintro w rfl
    obtain ⟨h, -⟩ | ⟨_, ⟨⟩, hf⟩ := hhalts.word
    · cases h
    · rw [(fetch_ok_iff.1 hf).2, toNat_wordOfBytes]

/-- Settles O45: each cause that halts a block has its own code. -/
theorem everyFaultHasItsCause : Obligations.EveryFaultHasItsCause := by
  unfold Obligations.EveryFaultHasItsCause
  intro s t r hstep hstatus
  obtain ⟨word, f, hhalts, rfl⟩ := halts_of_status hstep (by rw [hstatus]; exact nofun)
  cases hstatus
  cases hhalts with
  | outsideMemory hpc => simp [FaultRecord.code, hpc]
  | illegalWord w _ hw => simp [FaultRecord.code, hw]
  | raised w i f hfetch hr =>
    obtain ⟨rfl, rfl, hs⟩ | ⟨nnn, rfl, rfl, hs⟩ | ⟨len, rfl, hi, hs⟩ | ⟨x, rfl, hi, hs⟩ := hr
    · simpa [FaultRecord.code, hs] using ⟨w, hfetch⟩
    · simpa [FaultRecord.code, hs] using ⟨w, nnn, hfetch⟩
    · simpa [FaultRecord.code] using Or.inr ⟨w, i, hfetch, len, hi, hs⟩
    · simpa [FaultRecord.code] using ⟨w, i, hfetch, x, hi, hs⟩

/-! ## Every step returns -/

/-- Every instruction answers a next state: none is refused, and a fault it raises is a next state too (R237). -/
theorem exec_returns (i : Instr) (s : State) : ∃ t, exec i s = .next t := by
  cases i with
  | ret | call | drw | skp | sknp | ldVxK | ldB | storeRegs | loadRegs =>
    simp only [exec, execRet, execCall, execDrw, execSkp, execSknp, execLdVxK, execLdB, execStoreRegs, execLoadRegs]
    split <;> exact ⟨_, rfl⟩
  | _ => exact ⟨_, rfl⟩

/-- Settles O39: a step faults in the fetch, faults in decode, or runs an instruction, and each of the three answers a next state. -/
theorem stepAlwaysReturns : Obligations.StepAlwaysReturns := by
  unfold Obligations.StepAlwaysReturns
  intro s hrun
  cases hf : fetch s with
  | error f => exact ⟨_, stepFaults_of_fetch hrun (by have := (fetch_error_iff.1 hf).1; omega)⟩
  | ok w =>
    cases hd : decode w with
    | error e =>
      rw [decode_error hd] at hd
      exact ⟨_, stepFaults_of_decode hrun hf ((decode_error_iff w).1 hd)⟩
    | ok i =>
      rw [step_of_decode hrun hf hd]
      exact exec_returns i s.advance

end Sys2Proof.Machine

/-! PROOF. What an instruction that completes can write, said once, and who writes what: the writers of each part of the state (R22, R28, R31, R33, R51), and the parts no step writes. -/

namespace Sys2Proof.Machine

/-! ## `State.setRegsFrom` keeps all but the registers -/

section
variable (s : State) (k : Nat) (bs : List Byte)

@[simp] theorem State.setRegsFrom_i : (s.setRegsFrom k bs).i = s.i := by rw [setRegsFrom_eq]
@[simp] theorem State.setRegsFrom_pc : (s.setRegsFrom k bs).pc = s.pc := by rw [setRegsFrom_eq]
@[simp] theorem State.setRegsFrom_stack : (s.setRegsFrom k bs).stack = s.stack := by rw [setRegsFrom_eq]
@[simp] theorem State.setRegsFrom_mem : (s.setRegsFrom k bs).mem = s.mem := by rw [setRegsFrom_eq]
@[simp] theorem State.setRegsFrom_disp : (s.setRegsFrom k bs).disp = s.disp := by rw [setRegsFrom_eq]
@[simp] theorem State.setRegsFrom_wrap : (s.setRegsFrom k bs).wrap = s.wrap := by rw [setRegsFrom_eq]
@[simp] theorem State.setRegsFrom_keys : (s.setRegsFrom k bs).keys = s.keys := by rw [setRegsFrom_eq]
@[simp] theorem State.setRegsFrom_params : (s.setRegsFrom k bs).params = s.params := by rw [setRegsFrom_eq]

end

/-! ## The effect of an instruction -/

/-- The register an instruction names as the destination of its one result; the flag writers and FX65 are not among them (R22). -/
def destination : Instr → Option RegNo
  | .ldImm x _ | .addImm x _ | .ldReg x _ | .orReg x _ | .andReg x _ | .xorReg x _ | .rnd x _ | .ldVxDt x | .ldVxK x => some x
  | _ => none

/-- The five arithmetic instructions that write a flag (R24). -/
def FlagWriter (i : Instr) : Prop :=
  ∃ x y, i = .addReg x y ∨ i = .subReg x y ∨ i = .shr x y ∨ i = .subnReg x y ∨ i = .shl x y

/-- The instructions that write `I` (R28). -/
def IndexWriter (i : Instr) : Prop :=
  ∃ nnn x, i = .ldI nnn ∨ i = .addI x ∨ i = .ldF x

/-- The states an instruction can leave when it raises no fault, by the parts it writes. Where `pc` ends is `exec_pc`'s to say. -/
inductive Effect (s : State) : Instr → State → Prop
  | jump (i : Instr) (a : Word) : Effect s i (s.jump a)
  | push (nnn : Addr12) : s.params.stackDepth ≠ some s.stack.length →
      Effect s (.call nnn) { s with stack := s.stack ++ [s.pc], pc := addrOperand nnn }
  | pop (rest : List Word) (a : Word) : s.stack = rest ++ [a] → Effect s .ret { s with stack := rest, pc := a }
  | result (i : Instr) (x : RegNo) (b : Byte) : destination i = some x → Effect s i (s.setReg x b)
  | draw (x : RegNo) (nn b : Byte) : Effect s (.rnd x nn) ({ s with draws := s.draws + 1 }.setReg x b)
  | flag (i : Instr) (x : RegNo) (f : Byte) (r : State → Byte) : FlagWriter i → Effect s i (flagThenResult x f r s)
  | index (i : Instr) (a : Word) : IndexWriter i → Effect s i { s with i := a }
  | delay (x : RegNo) : Effect s (.ldDtVx x) { s with dt := s.reg x }
  | sound (x : RegNo) : Effect s (.ldStVx x) { s with st := s.reg x }
  | clear : Effect s .cls { s with disp := Display.clear }
  | sprite (x y : RegNo) (n : Nibble) (d : Display) (f : Byte) : Effect s (.drw x y n) (({ s with disp := d } : State).setReg vf f)
  | digits (x : RegNo) : s.i.toNat + (decimalDigits (s.reg x)).length ≤ 4096 →
      Effect s (.ldB x) { s with mem := s.mem.writeBytes s.params.fontRom s.i.toNat (decimalDigits (s.reg x)) }
  | store (x : RegNo) : s.i.toNat + (blockOfRegs s x).length ≤ 4096 →
      Effect s (.storeRegs x) { s with mem := s.mem.writeBytes s.params.fontRom s.i.toNat (blockOfRegs s x) }
  | load (x : RegNo) (bs : List Byte) : bs.length = x.toNat + 1 → Effect s (.loadRegs x) (s.setRegsFrom 0 bs)

/-- A skip is a jump, to `pc` itself when it is not taken. -/
theorem State.skipIf_eq_jump (s : State) (c : Bool) : s.skipIf c = s.jump (if c then s.pc + 2 else s.pc) := by
  cases c <;> rfl

/-- An instruction that raises no fault has one of the effects. -/
theorem exec_effect {i : Instr} {s t : State} (h : exec i s = .next t) (hrun : t.status = .running) : Effect s i t := by
  have hnf := raise_ne_next_of_running (s := s) hrun
  cases i with
  | ret =>
    obtain ⟨-, hf⟩ | ⟨rest, a, hs, rfl⟩ := execRet_cases h
    · exact (hnf _ hf).elim
    · exact .pop rest a hs
  | call nnn =>
    obtain ⟨-, hf⟩ | ⟨hs, rfl⟩ := execCall_cases h
    · exact (hnf _ hf).elim
    · exact .push nnn hs
  | drw x y n =>
    obtain ⟨-, hf⟩ | ⟨-, _, -, rfl⟩ := execDrw_cases h
    · exact (hnf _ hf).elim
    · exact .sprite x y n _ _
  | skp x =>
    obtain ⟨-, hf⟩ | ⟨k, -, rfl⟩ := execSkp_cases h
    · exact (hnf _ hf).elim
    · exact State.skipIf_eq_jump .. ▸ .jump _ _
  | sknp x =>
    obtain ⟨-, hf⟩ | ⟨k, -, rfl⟩ := execSknp_cases h
    · exact (hnf _ hf).elim
    · exact State.skipIf_eq_jump .. ▸ .jump _ _
  | seImm | sneImm | seReg | sneReg =>
    cases h
    exact State.skipIf_eq_jump .. ▸ .jump _ _
  | jp | jpV0 =>
    cases h
    exact .jump _ _
  | ldVxK x =>
    obtain ⟨-, rfl⟩ | ⟨k, -, rfl⟩ := execLdVxK_cases h
    · exact .jump _ _
    · exact .result _ x _ rfl
  | ldB x =>
    obtain ⟨-, hf⟩ | ⟨hr, rfl⟩ := execLdB_cases h
    · exact (hnf _ hf).elim
    · exact .digits x hr.2
  | storeRegs x =>
    obtain ⟨-, hf⟩ | ⟨hr, rfl⟩ := execStoreRegs_cases h
    · exact (hnf _ hf).elim
    · exact .store x (by rw [blockOfRegs_length]; exact hr.2)
  | loadRegs x =>
    obtain ⟨-, hf⟩ | ⟨-, rfl⟩ := execLoadRegs_cases h
    · exact (hnf _ hf).elim
    · exact .load x _ (Memory.readBytes_length ..)
  | addReg x y | subReg x y | shr x y | subnReg x y | shl x y =>
    cases h
    exact .flag _ _ _ _ ⟨x, y, by simp⟩
  | ldI nnn =>
    cases h
    exact .index _ _ ⟨nnn, 0, .inl rfl⟩
  | addI x | ldF x =>
    cases h
    exact .index _ _ ⟨0, x, by simp⟩
  | ldImm | addImm | ldReg | orReg | andReg | xorReg | ldVxDt =>
    cases h
    exact .result _ _ _ rfl
  | rnd x nn =>
    cases h
    exact .draw x nn _
  | cls =>
    cases h
    exact .clear
  | ldDtVx x =>
    cases h
    exact .delay x
  | ldStVx x =>
    cases h
    exact .sound x

/-- A step halts the block, and changes nothing but `status`, or has the effect of the instruction it fetches. -/
theorem step_effect {s t : State} (h : step s = .next t) :
    (∃ word f, t = s.halt word f) ∨ ∃ w i, Fetches s w i ∧ Effect s.advance i t := by
  obtain ⟨word, f, -, rfl⟩ | ⟨w, i, hfetch, hexec, hrun⟩ := step_halts_or_completes h
  · exact .inl ⟨word, f, rfl⟩
  · exact .inr ⟨w, i, hfetch, exec_effect hexec hrun⟩

/-! ## The host's part of the state -/

theorem Effect.hostOwned {s t : State} {i : Instr} (h : Effect s i t) :
    t.wrap = s.wrap ∧ t.keys = s.keys ∧ t.params = s.params := by
  cases h with
  | load => simp
  | _ => exact ⟨rfl, rfl, rfl⟩

/-- Settles O36: neither a fault nor any instruction's effect writes `wrap`, `keys` or the parameters. -/
theorem stepKeepsHostOwnedState : Obligations.StepKeepsHostOwnedState := by
  unfold Obligations.StepKeepsHostOwnedState
  intro s t hstep
  obtain ⟨_, _, rfl⟩ | ⟨_, _, -, heffect⟩ := step_effect hstep
  · exact ⟨rfl, rfl, rfl⟩
  · exact heffect.hostOwned

/-! ## The writers of `VF` -/

/-- A block fetches one instruction. -/
theorem Fetches.unique {s : State} {w w' : Word} {i i' : Instr} (h : Fetches s w i) (h' : Fetches s w' i') : i = i' := by
  obtain rfl : w = w' := BitVec.eq_of_toNat_eq (h.bytes.trans h'.bytes.symm)
  exact Except.ok.inj (h.decodes.symm.trans h'.decodes)

theorem State.reg_setReg_ne {s : State} {x k : RegNo} {b : Byte} (h : k ≠ x) : (s.setReg x b).reg k = s.reg k := by
  rw [State.reg_setReg, if_neg h]

/-- The writers of register 15, an FX65 of all sixteen registers among them. -/
theorem Effect.flagRegister {s t : State} {i : Instr} (h : Effect s i t) (hne : t.reg 15 ≠ s.reg 15) :
    FlagWriter i ∨ (∃ x y n, i = .drw x y n) ∨ destination i = some 15 ∨ i = .loadRegs 15 := by
  cases h with
  | flag _ _ _ _ hi => exact .inl hi
  | sprite x y n => exact .inr (.inl ⟨x, y, n, rfl⟩)
  | result _ x _ hi =>
    have hx : 15 = x := by_contra fun hx => hne (State.reg_setReg_ne hx)
    exact .inr (.inr (.inl (hx ▸ hi)))
  | draw x =>
    have hx : 15 = x := by_contra fun hx => hne (State.reg_setReg_ne hx)
    exact .inr (.inr (.inl (hx ▸ rfl)))
  | load x bs hlen =>
    have hx : x = 15 := by
      by_contra hx
      have hlt : x.toNat < 15 := by bv_omega
      exact hne (by rw [State.reg_setRegsFrom _ _ _ (by omega), dif_neg (by simp; omega)])
    exact .inr (.inr (.inr (hx ▸ rfl)))
  | _ => exact absurd rfl hne

/-- The instructions with register 15 as their destination (R22). -/
theorem destination_eq_fifteen {i : Instr} (h : destination i = some 15) :
    (∃ nn, i = .ldImm 15 nn ∨ i = .addImm 15 nn ∨ i = .rnd 15 nn) ∨
    (∃ y, i = .ldReg 15 y ∨ i = .orReg 15 y ∨ i = .andReg 15 y ∨ i = .xorReg 15 y) ∨ i = .ldVxDt 15 ∨ i = .ldVxK 15 := by
  cases i with
  | ldImm | addImm | rnd | ldReg | orReg | andReg | xorReg | ldVxDt | ldVxK =>
    cases h
    simp
  | _ => cases h

/-- Settles O23: a fault leaves `VF`, and `Effect.flagRegister` names the instructions whose effect can change it. -/
theorem flagRegisterWriters : Obligations.FlagRegisterWriters := by
  unfold Obligations.FlagRegisterWriters
  intro s t w i hfetch hstep hne
  obtain ⟨_, _, rfl⟩ | ⟨w', i', hfetch', heffect⟩ := step_effect hstep
  · exact absurd rfl hne
  · obtain rfl := hfetch.unique hfetch'
    obtain hi | hi | hi | rfl := heffect.flagRegister hne
    · exact .inl hi
    · exact .inr (.inl hi)
    · exact .inr (.inr ((destination_eq_fifteen hi).imp_right (·.imp_right (·.imp_right .inl))))
    · exact .inr (.inr (.inr (.inr (.inr (.inr rfl)))))

/-! ## The writers of `I`, the stack, the pixels and memory -/

theorem Effect.indexWriter {s t : State} {i : Instr} (h : Effect s i t) (hne : t.i ≠ s.i) : IndexWriter i := by
  cases h with
  | index _ _ hi => exact hi
  | load => simp at hne
  | _ => exact absurd rfl hne

theorem Effect.stackWriter {s t : State} {i : Instr} (h : Effect s i t) (hne : t.stack ≠ s.stack) :
    (∃ nnn, i = .call nnn) ∨ i = .ret := by
  cases h with
  | push nnn => exact .inl ⟨nnn, rfl⟩
  | pop => exact .inr rfl
  | load => simp at hne
  | _ => exact absurd rfl hne

theorem Effect.pixelWriter {s t : State} {i : Instr} (h : Effect s i t) {c : Fin 64} {r : Fin 32}
    (hne : t.pixel c r ≠ s.pixel c r) : i = .cls ∨ ∃ x y n, i = .drw x y n := by
  cases h with
  | clear => exact .inl rfl
  | sprite x y n => exact .inr ⟨x, y, n, rfl⟩
  | load => simp [State.pixel] at hne
  | _ => exact absurd rfl hne

/-- A byte that a store changes lies in the span of the store. -/
theorem Memory.mem_span_of_writeBytes_ne {font : Vector Byte 80} {m : Memory} {a b : Nat} {ws : List Byte}
    (h : (m.writeBytes font a ws).read font b ≠ m.read font b) : a ≤ b ∧ b < a + ws.length := by
  by_contra hout
  exact h (Memory.read_writeBytes_outside _ _ _ _ _ (by omega))

theorem Effect.byteWriter {s t : State} {i : Instr} (h : Effect s i t) {a : Nat} (hne : t.byte a ≠ s.byte a) :
    s.i.toNat ≤ a ∧ ∃ x, (i = .ldB x ∧ a < s.i.toNat + 3) ∨ (i = .storeRegs x ∧ a < s.i.toNat + (x.toNat + 1)) := by
  cases h with
  | digits x =>
    obtain ⟨hlo, hhi⟩ := Memory.mem_span_of_writeBytes_ne hne
    exact ⟨hlo, x, .inl ⟨rfl, hhi⟩⟩
  | store x =>
    obtain ⟨hlo, hhi⟩ := Memory.mem_span_of_writeBytes_ne hne
    rw [blockOfRegs_length] at hhi
    exact ⟨hlo, x, .inr ⟨rfl, hhi⟩⟩
  | load => simp [State.byte] at hne
  | _ => exact absurd rfl hne

/-- Settles O30: a fault changes none of these parts, and each part has its lemma on the effects that can change it. -/
theorem eachPartHasItsWriters : Obligations.EachPartHasItsWriters := by
  unfold Obligations.EachPartHasItsWriters
  intro s t hstep
  obtain ⟨_, _, rfl⟩ | ⟨w, i, hfetch, heffect⟩ := step_effect hstep
  · exact ⟨fun hne => absurd rfl hne, fun hne => absurd rfl hne, fun _ _ hne => absurd rfl hne, fun _ hne => absurd rfl hne⟩
  refine ⟨fun hne => ?_, fun hne => ?_, fun c r hne => ?_, fun a hne => ?_⟩
  · obtain ⟨nnn, x, rfl | rfl | rfl⟩ := heffect.indexWriter hne
    · exact ⟨w, nnn, x, .inl hfetch⟩
    · exact ⟨w, nnn, x, .inr (.inl hfetch)⟩
    · exact ⟨w, nnn, x, .inr (.inr hfetch)⟩
  · obtain ⟨nnn, rfl⟩ | rfl := heffect.stackWriter hne
    · exact ⟨w, nnn, .inl hfetch⟩
    · exact ⟨w, 0, .inr hfetch⟩
  · obtain rfl | ⟨x, y, n, rfl⟩ := heffect.pixelWriter hne
    · exact ⟨w, 0, 0, 0, .inl hfetch⟩
    · exact ⟨w, x, y, n, .inr hfetch⟩
  · obtain ⟨hlo, x, ⟨rfl, hhi⟩ | ⟨rfl, hhi⟩⟩ := heffect.byteWriter hne
    · exact ⟨w, x, hlo, .inl ⟨hfetch, hhi⟩⟩
    · exact ⟨w, x, hlo, .inr ⟨hfetch, hhi⟩⟩

end Sys2Proof.Machine

/-! PROOF. The invariant (R20, R27, R54, R222): construction meets it, every step and every host command keeps it, so every state the host can reach meets it. -/

namespace Sys2Proof.Machine

/-! ## The parts of the invariant under an instruction's effect -/

/-- A store inside memory keeps the canonical form, and nothing else writes memory. -/
theorem Effect.memCanonical {s t : State} {i : Instr} (h : Effect s i t) (hmem : s.mem.wf s.params.fontRom) :
    t.mem.wf t.params.fontRom := by
  cases h with
  | digits _ hspan | store _ hspan => exact Memory.writeBytes_wf hmem hspan
  | load => simpa using hmem
  | _ => exact hmem

/-- The return address that 2NNN pushes is the post-fetch `pc`. -/
theorem Effect.returnBound {s t : State} {i : Instr} (h : Effect s i t) (hpc : s.pc.toNat ≤ 0x1000)
    (hstack : ∀ a ∈ s.stack, a.toNat ≤ 0x1000) : ∀ a ∈ t.stack, a.toNat ≤ 0x1000 := by
  cases h with
  | push =>
    intro a ha
    obtain ha | ha := List.mem_append.1 ha
    · exact hstack a ha
    · rwa [List.mem_singleton.1 ha]
  | pop rest a hs => exact fun b hb => hstack b (hs ▸ List.mem_append_left _ hb)
  | load => simpa using hstack
  | _ => exact hstack

/-- 2NNN pushes on a stack that is not full only. -/
theorem Effect.stackBound {s t : State} {i : Instr} (h : Effect s i t)
    (hstack : ∀ d, s.params.stackDepth = some d → s.stack.length ≤ d) :
    ∀ d, t.params.stackDepth = some d → t.stack.length ≤ d := by
  cases h with
  | push _ hfull =>
    intro d hd
    have hle := hstack d hd
    have hne : s.stack.length ≠ d := fun e => hfull (by rw [e]; exact hd)
    simp only [List.length_append, List.length_singleton]
    omega
  | pop rest a hs =>
    intro d hd
    have hle := hstack d hd
    simp only [hs, List.length_append] at hle
    exact Nat.le_of_add_right_le hle
  | load => simpa using hstack
  | _ => exact hstack

/-! ## Where `pc` can end -/

/-- The largest target of each row of R26's table: 0x10FE is BNNN's, 0xFFF + 0xFF (R27). -/
theorem toNat_pcAfter_le {s : State} {i : Instr} (hlo : 2 ≤ s.pc.toNat) (hhi : s.pc.toNat ≤ 0x1000)
    (hstack : ∀ a ∈ s.stack, a.toNat ≤ 0x1000) : (pcAfter s i).toNat ≤ 0x10FE := by
  cases i with
  | jp nnn | call nnn =>
    have htarget : (pcAfter s (.jp nnn)).toNat = nnn.toNat := toNat_addrOperand nnn
    have := nnn.isLt
    exact htarget.trans_le (by omega)
  | jpV0 nnn =>
    have htarget : (pcAfter s (.jpV0 nnn)).toNat = (nnn.toNat + (s.reg 0).toNat) % 65536 := by
      rw [← toNat_addrOperand nnn]
      exact toNat_word_add_byte (addrOperand nnn) (s.reg 0)
    have := nnn.isLt
    have := (s.reg 0).isLt
    omega
  | ret =>
    obtain hzero | hmem := List.mem_cons.1 (List.getLastD_mem_cons (l := s.stack) (a := 0))
    · exact (congrArg BitVec.toNat hzero).trans_le (by decide)
    · exact (hstack _ hmem).trans (by decide)
  | _ =>
    unfold pcAfter
    dsimp only
    split <;> bv_omega

/-- The fetch of a step that faults neither there nor in decode adds 2 to a `pc` of at most 0xFFE. -/
theorem Fetches.toNat_advance_pc {s : State} {w : Word} {i : Instr} (h : Fetches s w i) :
    s.advance.pc.toNat = s.pc.toNat + 2 := by
  have := h.inside
  rw [State.advance_pc]
  bv_omega

/-! ## The transitions -/

/-- Taking a fault keeps the invariant: the record gets the block's own `pc` (R221, R222). -/
theorem State.Inv.halt {s : State} (h : s.Inv) (word : Option Word) (f : FaultCause) : (s.halt word f).Inv where
  memCanonical := h.memCanonical
  pcBound := h.pcBound
  returnBound := h.returnBound
  stackBound := h.stackBound
  haltedAt := by
    rintro r ⟨⟩
    rfl

/-- An instruction that completes keeps the invariant. -/
theorem State.Inv.exec {s t : State} {w : Word} {i : Instr} (h : s.Inv) (hfetch : Fetches s w i)
    (hexec : exec i s.advance = .next t) (hrun : t.status = .running) : t.Inv := by
  have heffect := exec_effect hexec hrun
  have hpc := hfetch.toNat_advance_pc
  have hinside := hfetch.inside
  exact {
    memCanonical := heffect.memCanonical h.memCanonical
    pcBound := exec_pc hexec hrun ▸ toNat_pcAfter_le (by omega) (by omega) h.returnBound
    returnBound := heffect.returnBound (by omega) h.returnBound
    stackBound := heffect.stackBound h.stackBound
    haltedAt := by simp [hrun] }

/-- A step halts the block or completes an instruction, and both keep the invariant. -/
theorem State.Inv.step {s t : State} (h : s.Inv) (hstep : step s = .next t) : t.Inv := by
  obtain ⟨word, f, -, rfl⟩ | ⟨w, i, hfetch, hexec, hrun⟩ := step_halts_or_completes hstep
  · exact h.halt word f
  · exact h.exec hfetch hexec hrun

/-- Settles O53: `State.Inv.step`. -/
theorem stepKeepsInvariant : Obligations.StepKeepsInvariant := by
  unfold Obligations.StepKeepsInvariant
  exact fun _ _ => State.Inv.step

/-- Construction meets the invariant for every choice of the parameters: nothing is listed in memory and nothing is on the stack. -/
theorem construct_inv (p : Params) : (State.construct p).Inv where
  memCanonical := Memory.nil_wf _
  pcBound := (by decide : (0x200#16).toNat ≤ 0x10FE)
  returnBound := nofun
  stackBound := fun _ _ => Nat.zero_le _
  haltedAt := nofun

/-- Settles O54: `construct_inv`, of which the reset state is the case of the default parameters. -/
theorem constructionMeetsInvariant : Obligations.ConstructionMeetsInvariant := by
  unfold Obligations.ConstructionMeetsInvariant
  exact ⟨construct_inv, construct_inv Params.default⟩

/-- A command that needs a running block and answers a next state had the answer it has in a running block. -/
theorem whenRunning_eq_next {s t : State} {o : Host.Outcome State Fault Refusal} (h : whenRunning s o = .next t) :
    s.status = .running ∧ o = .next t := by
  cases hs : s.status with
  | running => exact ⟨rfl, whenRunning_of_running hs o ▸ h⟩
  | halted r =>
    rw [whenRunning_of_halted hs] at h
    cases h

theorem State.Inv.resetBlock {s : State} : s.resetBlock.Inv :=
  { construct_inv s.params with }

/-- A program that LOAD accepts ends at 0xFFF at the latest, inside memory (R264). -/
theorem State.Inv.loadProgram {s : State} (h : s.Inv) {p : List Byte} (hp : programWellFormed p = true) : (s.loadProgram p).Inv :=
  { h with memCanonical := Memory.writeBytes_wf h.memCanonical (by
      have := (programWellFormed_iff p).1 hp
      simp only [Config.progBase, Config.memSize]
      omega) }

/-- Every host command keeps the invariant; only STEP, RESET and LOAD touch a part it speaks of. -/
theorem State.Inv.apply {s t : State} (h : s.Inv) (c : Command) (happly : c.apply s = .next t) : t.Inv := by
  cases c with
  | step => exact h.step happly
  | reset =>
    cases happly
    exact State.Inv.resetBlock
  | load p =>
    have hload := (whenRunning_eq_next happly).2
    split at hload
    · next hp =>
      cases hload
      exact h.loadProgram hp
    · cases hload
  | tick | setKeys | setWrap =>
    cases (whenRunning_eq_next happly).2
    exact { h with }
  | readScreen | readSound | readStatus =>
    cases happly
    exact h

/-- Settles O55: `State.Inv.apply`. -/
theorem commandKeepsInvariant : Obligations.CommandKeepsInvariant := by
  unfold Obligations.CommandKeepsInvariant
  exact fun c _ _ h => h.apply c

/-- A run keeps the invariant, by induction on its commands. -/
theorem State.Inv.runCommands {s t : State} (h : s.Inv) {cs : List Command} (hrun : runCommands cs s = .next t) : t.Inv := by
  induction cs generalizing s with
  | nil =>
    cases hrun
    exact h
  | cons c cs ih =>
    unfold Machine.runCommands at hrun
    split at hrun
    · next s' happly => exact ih (h.apply c happly) hrun
    · cases hrun
    · cases hrun

/-- Settles O56: a run from construction starts in the invariant and keeps it. -/
theorem reachableStatesMeetInvariant : Obligations.ReachableStatesMeetInvariant := by
  unfold Obligations.ReachableStatesMeetInvariant
  rintro s ⟨p, cs, hrun⟩
  exact (construct_inv p).runCommands hrun

end Sys2Proof.Machine

/-! PROOF. Control transfer (R130 to R132, R137, R139): jumps, the call and the return, and the skips with the fetch that follows. -/

namespace Sys2Proof.Machine

/-! ## A write of `pc`, whatever the value -/

/-- A jump changes no part of a state but `pc`. -/
theorem unchangedExcept_pc_jump (s : State) (a : Word) : UnchangedExcept (· = .pc) s (s.jump a) := by
  intro p hp
  cases p with
  | pc => exact absurd rfl hp
  | _ => rfl

/-- A jump to 0xFFF or above, in a running block, faults at the next fetch (R138). -/
theorem stepFaults_jump {s : State} {a : Word} (hrun : s.status = .running) (ha : 0xFFF ≤ a.toNat) :
    StepFaults (s.jump a) none (.outOfRange a.toNat 2) :=
  stepFaults_of_fetch (s := s.jump a) hrun ha

/-- An instruction that is the jump to a word with value `n` leaves `n` in `pc`, and the next fetch faults when `n` is 0xFFF or above. -/
theorem jump_result {i : Instr} {s : State} {a : Word} {n : Nat} (hexec : exec i s = .next (s.jump a)) (ha : a.toNat = n) :
    ∃ t, exec i s = .next t ∧ t.pc.toNat = n ∧ UnchangedExcept (· = .pc) s t ∧
      (s.status = .running → 0xFFF ≤ n → StepFaults t none (.outOfRange n 2)) := by
  subst ha
  exact ⟨s.jump a, hexec, rfl, unchangedExcept_pc_jump s a, stepFaults_jump⟩

theorem exec_jp (nnn : Addr12) (s : State) : exec (.jp nnn) s = .next (s.jump (addrOperand nnn)) := rfl

theorem exec_jpV0 (nnn : Addr12) (s : State) : exec (.jpV0 nnn) s = .next (s.jump (indexedTarget nnn s)) := rfl

/-- The sum of twelve bits and a byte fits in a word, so BNNN's target is exact (R139). -/
theorem toNat_indexedTarget (nnn : Addr12) (s : State) : (indexedTarget nnn s).toNat = nnn.toNat + (s.reg 0).toNat := by
  have := nnn.isLt
  have := (s.reg 0).isLt
  rw [indexedTarget, toNat_word_add_byte, toNat_addrOperand]
  omega

/-- Settles O9: each instruction is the jump to its target, and the fetch that follows faults from 0xFFF on. -/
theorem jumpResult : Obligations.JumpResult := by
  unfold Obligations.JumpResult
  refine ⟨decodesAs_jp, decodesAs_jpV0, fun nnn s => ⟨?_, ?_⟩⟩
  · obtain ⟨t, hexec, hpc, hframe, hfault⟩ := jump_result (exec_jp nnn s) (toNat_addrOperand nnn)
    refine ⟨t, hexec, hpc, hframe, ?_⟩
    rintro hrun rfl
    exact hfault hrun (by decide)
  · obtain ⟨t, hexec, hpc, hframe, hfault⟩ := jump_result (exec_jpV0 nnn s) (toNat_indexedTarget nnn s)
    have hfits : nnn.toNat + (s.reg 0).toNat < 65536 := toNat_indexedTarget nnn s ▸ (indexedTarget nnn s).isLt
    exact ⟨t, hexec, hpc.trans (Nat.mod_eq_of_lt hfits).symm, hframe, hfault⟩

/-! ## The call and the return -/

theorem exec_call_of_not_full {nnn : Addr12} {s : State} (h : s.params.stackDepth ≠ some s.stack.length) :
    exec (.call nnn) s = .next ((s.push s.pc).jump (addrOperand nnn)) := by
  simp [exec, execCall, State.stackFull, h]

theorem exec_ret_of_stack {s : State} {rest : List Word} {a : Word} (h : s.stack = rest ++ [a]) :
    exec .ret s = .next { s with stack := rest, pc := a } := by
  simp [exec, execRet, State.pop, h, State.jump]

/-- A transfer through the stack changes no part of a state but `pc` and the stack. -/
theorem unchangedExcept_pc_stack (s : State) (l : List Word) (a : Word) :
    UnchangedExcept (fun p => p = .pc ∨ p = .stack) s { s with stack := l, pc := a } := by
  intro p hp
  cases p with
  | pc => exact absurd (.inl rfl) hp
  | stack => exact absurd (.inr rfl) hp
  | _ => rfl

/-- Settles O10: 2NNN is a push of `pc` and a jump. -/
theorem callResult : Obligations.CallResult := by
  unfold Obligations.CallResult
  exact ⟨decodesAs_call, fun nnn s hfull =>
    ⟨_, exec_call_of_not_full hfull, rfl, toNat_addrOperand nnn, unchangedExcept_pc_stack s _ _⟩⟩

/-- Settles O11: 00EE takes the last entry off the stack. -/
theorem returnResult : Obligations.ReturnResult := by
  unfold Obligations.ReturnResult
  exact ⟨decodesAs_ret, fun rest a s hs => ⟨_, exec_ret_of_stack hs, rfl, rfl, unchangedExcept_pc_stack s _ _⟩⟩

/-- Settles O12: the entry 00EE takes off is the `pc` that 2NNN has pushed. -/
theorem returnUndoesCall : Obligations.ReturnUndoesCall := by
  unfold Obligations.ReturnUndoesCall
  intro nnn s t hfull hcall
  rw [exec_call_of_not_full hfull] at hcall
  cases hcall
  exact exec_ret_of_stack rfl

/-! ## The skips -/

theorem exec_skp_of_key {x : RegNo} {s : State} {k : Fin 16} (hk : (s.reg x).toNat = k.val) :
    exec (.skp x) s = .next (s.skipIf (s.isDown k)) := by
  simp only [exec, execSkp, keyOperand_ok_iff.2 hk]

theorem exec_sknp_of_key {x : RegNo} {s : State} {k : Fin 16} (hk : (s.reg x).toNat = k.val) :
    exec (.sknp x) s = .next (s.skipIf (!s.isDown k)) := by
  simp only [exec, execSknp, keyOperand_ok_iff.2 hk]

/-- Settles O31: with the key index in range EX9E and EXA1 are skips on the state of that key. -/
theorem keySkipResult : Obligations.KeySkipResult := by
  unfold Obligations.KeySkipResult
  exact ⟨decodesAs_skp, decodesAs_sknp, fun x s k hk =>
    ⟨skip_result (exec_skp_of_key hk) Iff.rfl, skip_result (exec_sknp_of_key hk) (Iff.of_eq (Bool.not_eq_true' _))⟩⟩

/-- A key skip with its condition defined has a key index of at most 15. -/
theorem key_of_down_eq_some {s : State} {x : RegNo} {d : Bool} (h : s.keys.down[(s.reg x).toNat]? = some d) :
    ∃ k : Fin 16, (s.reg x).toNat = k.val ∧ s.isDown k = d := by
  obtain ⟨hlt, hd⟩ := Vector.getElem?_eq_some_iff.1 h
  exact ⟨⟨_, hlt⟩, rfl, hd⟩

/-- An instruction with its skip condition defined is the skip on it (R137). -/
theorem exec_of_skipCondition {s : State} {i : Instr} {c : Bool} (h : skipCondition s i = some c) :
    exec i s = .next (s.skipIf c) := by
  cases i with
  | seImm | sneImm | seReg | sneReg =>
    cases h
    rfl
  | skp x =>
    obtain ⟨k, hk, rfl⟩ := key_of_down_eq_some h
    exact exec_skp_of_key hk
  | sknp x =>
    obtain ⟨d, hd, rfl⟩ := Option.map_eq_some_iff.1 h
    obtain ⟨k, hk, rfl⟩ := key_of_down_eq_some hd
    exact exec_sknp_of_key hk
  | _ => cases h

/-- The condition of a skip does not read `pc`. -/
theorem skipCondition_advance (s : State) (i : Instr) : skipCondition s.advance i = skipCondition s i := by
  cases i <;> rfl

/-- Settles O15: the step is the fetch's 2 and then the skip; both write `pc` only. -/
theorem skipMovesPcByFourOrTwo : Obligations.SkipMovesPcByFourOrTwo := by
  unfold Obligations.SkipMovesPcByFourOrTwo
  intro s w i c hfetch hc
  have hstep : step s = .next (s.jump (if c then s.pc + 2 + 2 else s.pc + 2)) := by
    rw [hfetch.step_eq, exec_of_skipCondition (skipCondition_advance s i ▸ hc), State.skipIf_eq_jump]
    rfl
  have hpc : (if c then s.pc + 2 + 2 else s.pc + 2).toNat = s.pc.toNat + (if c then 4 else 2) := by
    have := hfetch.inside
    cases c <;> simp only [if_true, Bool.false_eq_true, if_false] <;> bv_omega
  exact ⟨_, hstep, hpc, unchangedExcept_pc_jump s _, stepFaults_jump hfetch.running⟩

/-! ## The key wait -/

theorem exec_ldVxK_of_pressed {x : RegNo} {s : State} {k : Fin 16} (h : s.keys.justPressed = some k) :
    exec (.ldVxK x) s = .next (s.setReg x (BitVec.ofNat 8 k.val)) := by
  simp only [exec, execLdVxK, h]

theorem exec_ldVxK_of_none {x : RegNo} {s : State} (h : s.keys.justPressed = none) :
    exec (.ldVxK x) s = .next s.rewound := by
  simp only [exec, execLdVxK, h]

/-- A key index fits in a byte. -/
theorem toNat_keyByte (k : Fin 16) : (BitVec.ofNat 8 k.val).toNat = k.val := by
  rw [BitVec.toNat_ofNat, Nat.mod_eq_of_lt (by omega)]

/-- Settles O32: with a key just pressed FX0A is a register write; with none it takes the fetch's 2 back, so the step is the identity and the block still accepts a TICK. -/
theorem keyWaitResult : Obligations.KeyWaitResult := by
  unfold Obligations.KeyWaitResult
  refine ⟨decodesAs_ldVxK, fun x s k hk => ?_, fun x s w hfetch => ⟨fun k hk => ?_, fun hnone => ⟨?_, ?_⟩⟩⟩
  · obtain ⟨t, hexec, hreg, hframe⟩ := setReg_result (exec_ldVxK_of_pressed (x := x) hk)
    exact ⟨t, hexec, hreg ▸ toNat_keyByte k, hframe⟩
  · have hstep := hfetch.step_eq.trans (exec_ldVxK_of_pressed (s := s.advance) hk)
    refine ⟨_, hstep, hfetch.toNat_advance_pc, ?_⟩
    rw [State.reg_setReg_same, toNat_keyByte]
  · calc step s = exec (.ldVxK x) s.advance := hfetch.step_eq
      _ = .next s.advance.rewound := exec_ldVxK_of_none hnone
      _ = .next s := by rw [State.rewound_advance]
  · exact ⟨_, apply_tick_of_running hfetch.running⟩

end Sys2Proof.Machine

/-! PROOF. The flag writers (R150, R157 to R161) and the random draw (R162): one lemma for a flag and a result written in that order, then the values. -/

namespace Sys2Proof.Machine

/-! ## A flag and a result, whatever the values -/

/-- The flag writers change no part of a state but `Vx` and `VF`. -/
theorem unchangedExcept_flagThenResult (s : State) (x : RegNo) (flag : Byte) (result : State → Byte) :
    UnchangedExcept (fun p => p = .reg x ∨ p = .reg 15) s (flagThenResult x flag result s) := by
  intro p hp
  cases p with
  | reg j =>
    have hx : j ≠ x := fun e => hp (.inl (congrArg Part.reg e))
    have hf : j ≠ 15#4 := fun e => hp (.inr (congrArg Part.reg e))
    exact (reg_flagThenResult x flag result s j).trans (by rw [if_neg hx, if_neg hf])
  | _ => rfl

/-- An instruction that writes a flag and then a result leaves the result in `Vx`, read after the flag write, and the flag in `VF` unless that is `Vx` (R150). -/
theorem flagThenResult_result {i : Instr} {s : State} {x : RegNo} {flag : Byte} {result : State → Byte}
    (hexec : exec i s = .next (flagThenResult x flag result s)) :
    ∃ t, exec i s = .next t ∧ t.reg x = result (s.setReg 15 flag) ∧ (x ≠ 15 → t.reg 15 = flag) ∧
      UnchangedExcept (fun p => p = .reg x ∨ p = .reg 15) s t := by
  refine ⟨_, hexec, ?_, fun hx => ?_, unchangedExcept_flagThenResult s x flag result⟩
  · exact (reg_flagThenResult x flag result s x).trans (if_pos rfl)
  · exact (reg_flagThenResult x flag result s 15).trans (by rw [if_neg hx.symm]; exact if_pos rfl)

/-- An operand read after the flag write: the flag itself when the operand is register 15. -/
theorem toNat_reg_setReg (s : State) (k j : RegNo) (b : Byte) :
    ((s.setReg k b).reg j).toNat = if j = k then b.toNat else (s.reg j).toNat := by
  rw [State.reg_setReg, apply_ite BitVec.toNat]

/-! ## The sum -/

theorem exec_addReg (x y : RegNo) (s : State) : exec (.addReg x y) s =
    .next (flagThenResult x (carryFlag (s.reg x) (s.reg y)) (fun _ => wrappingAdd (s.reg x) (s.reg y)) s) := rfl

theorem carryFlag_eq (a b : Byte) : carryFlag a b = if a.toNat + b.toNat > 255 then 1 else 0 := by
  simp only [carryFlag, bool01, decide_eq_true_eq]

/-- Settles O19: the carry goes to `VF`, then the byte sum of the old values to `Vx`. -/
theorem addRegistersResult : Obligations.AddRegistersResult := by
  unfold Obligations.AddRegistersResult
  refine ⟨decodesAs_addReg, fun x y s => ?_⟩
  obtain ⟨t, hexec, hreg, hflag, hframe⟩ := flagThenResult_result (exec_addReg x y s)
  refine ⟨t, hexec, ?_, fun hx => (hflag hx).trans (carryFlag_eq ..), hframe⟩
  rw [hreg, wrappingAdd_eq, BitVec.toNat_add]

/-! ## The differences -/

theorem exec_subReg (x y : RegNo) (s : State) : exec (.subReg x y) s =
    .next (flagThenResult x (notBorrowFlag (s.reg x) (s.reg y)) (fun t => wrappingSub (t.reg x) (t.reg y)) s) := rfl

theorem exec_subnReg (x y : RegNo) (s : State) : exec (.subnReg x y) s =
    .next (flagThenResult x (notBorrowFlag (s.reg y) (s.reg x)) (fun t => wrappingSub (t.reg y) (t.reg x)) s) := rfl

theorem toNat_notBorrowFlag (a b : Byte) : ((notBorrowFlag a b).toNat : Int) = if a.toNat ≥ b.toNat then 1 else 0 := by
  simp only [notBorrowFlag, bool01, decide_eq_true_eq]
  split <;> rfl

theorem toNat_wrappingSub (a b : Byte) : ((wrappingSub a b).toNat : Int) = ((a.toNat : Int) - b.toNat) % 256 := by
  rw [wrappingSub, BitVec.toNat_ofInt]
  omega

/-- A difference `Va - Vb` written to `Vx` after its not-borrow flag: `a = x` is 8XY5, `b = x` is 8XY7 (R158, R160). -/
theorem difference_result {i : Instr} {s : State} {x a b : RegNo} (hexec : exec i s =
      .next (flagThenResult x (notBorrowFlag (s.reg a) (s.reg b)) (fun t => wrappingSub (t.reg a) (t.reg b)) s)) :
    ∃ t f, f = (if (s.reg a).toNat ≥ (s.reg b).toNat then 1 else 0) ∧ exec i s = .next t ∧
      ((t.reg x).toNat : Int) =
        ((if a = 15 then f else ((s.reg a).toNat : Int)) - (if b = 15 then f else ((s.reg b).toNat : Int))) % 256 ∧
      (x ≠ 15 → ((t.reg 15).toNat : Int) = f) ∧ UnchangedExcept (fun p => p = .reg x ∨ p = .reg 15) s t := by
  obtain ⟨t, hexec, hreg, hflag, hframe⟩ := flagThenResult_result hexec
  refine ⟨t, _, (toNat_notBorrowFlag (s.reg a) (s.reg b)), hexec, ?_, fun hx => by rw [hflag hx], hframe⟩
  rw [hreg, toNat_wrappingSub, toNat_reg_setReg, toNat_reg_setReg]
  simp only [Nat.cast_ite]

/-- Settles O20: both instructions are `difference_result`, with the operands in the two orders. -/
theorem subtractRegistersResult : Obligations.SubtractRegistersResult := by
  unfold Obligations.SubtractRegistersResult
  exact ⟨decodesAs_subReg, decodesAs_subnReg, fun x y s =>
    ⟨difference_result (exec_subReg x y s), difference_result (exec_subnReg x y s)⟩⟩

/-! ## The shifts -/

theorem exec_shr (x y : RegNo) (s : State) : exec (.shr x y) s =
    .next (flagThenResult x (lowBitFlag (s.reg x)) (fun t => t.reg x >>> 1) s) := rfl

theorem exec_shl (x y : RegNo) (s : State) : exec (.shl x y) s =
    .next (flagThenResult x (highBitFlag (s.reg x)) (fun t => t.reg x <<< 1) s) := rfl

theorem toNat_lowBitFlag (a : Byte) : (lowBitFlag a).toNat = a.toNat % 2 := by
  rw [lowBitFlag, BitVec.toNat_and]
  exact Nat.and_one_is_mod _

theorem toNat_highBitFlag (a : Byte) : (highBitFlag a).toNat = a.toNat / 128 := by
  have := a.isLt
  calc (highBitFlag a).toNat = (lowBitFlag (a >>> 7)).toNat := rfl
    _ = a.toNat / 128 % 2 := by rw [toNat_lowBitFlag, BitVec.toNat_ushiftRight, Nat.shiftRight_eq_div_pow]
    _ = a.toNat / 128 := Nat.mod_eq_of_lt (by omega)

/-- Settles O21: the bit shifted out goes to `VF`, then `Vx`, which is that bit when `x` is 15, is shifted; `y` takes no part. -/
theorem shiftRegisterResult : Obligations.ShiftRegisterResult := by
  unfold Obligations.ShiftRegisterResult
  refine ⟨decodesAs_shr, decodesAs_shl, fun x y s => ⟨?_, ?_⟩⟩
  · obtain ⟨t, hexec, hreg, hflag, hframe⟩ := flagThenResult_result (exec_shr x y s)
    refine ⟨t, hexec, ?_, fun hx => by rw [hflag hx, toNat_lowBitFlag], hframe⟩
    rw [hreg, BitVec.toNat_ushiftRight, Nat.shiftRight_eq_div_pow, toNat_reg_setReg, toNat_lowBitFlag]
  · obtain ⟨t, hexec, hreg, hflag, hframe⟩ := flagThenResult_result (exec_shl x y s)
    refine ⟨t, hexec, ?_, fun hx => by rw [hflag hx, toNat_highBitFlag], hframe⟩
    rw [hreg, BitVec.toNat_shiftLeft, Nat.shiftLeft_eq, toNat_reg_setReg, toNat_highBitFlag, Nat.mul_comm]

/-! ## The random draw -/

theorem exec_rnd (x : RegNo) (nn : Byte) (s : State) : exec (.rnd x nn) s =
    .next ({ s with draws := s.draws + 1 }.setReg x (Config.rng s.draws &&& nn)) := rfl

/-- Settles O22: CXNN counts one draw and writes one register. -/
theorem randomResult : Obligations.RandomResult := by
  unfold Obligations.RandomResult
  refine ⟨decodesAs_rnd, fun x nn s => ⟨_, exec_rnd x nn s, State.reg_setReg_same .., rfl, fun p hp => ?_⟩⟩
  cases p with
  | draws => exact absurd (.inr rfl) hp
  | reg j => exact State.reg_setReg_ne fun hj => hp (.inl (congrArg Part.reg hj))
  | _ => rfl

end Sys2Proof.Machine

/-! PROOF. Access through `I` (R183 to R187): a store of several bytes, a load of several registers, and what a load or a fetch sees of a store. -/

namespace Sys2Proof.Machine

/-! ## A store of several bytes, whatever the bytes -/

/-- The state after the bytes `ws` have been stored at `I`. -/
def State.storedAtI (s : State) (ws : List Byte) : State :=
  { s with mem := s.mem.writeBytes s.params.fontRom s.i.toNat ws }

theorem State.byte_storedAtI (s : State) {ws : List Byte} {k : Nat} (h : k < ws.length) :
    (s.storedAtI ws).byte (s.i.toNat + k) = ws[k] :=
  Memory.read_writeBytes_inside _ _ _ _ _ h

/-- A store changes no part of a state but the bytes of its span. -/
theorem unchangedExcept_storedAtI (s : State) (ws : List Byte) :
    UnchangedExcept (fun p => ∃ k, k < ws.length ∧ p = .byte (s.i.toNat + k)) s (s.storedAtI ws) := by
  intro p hp
  cases p with
  | byte a =>
    refine Memory.read_writeBytes_outside _ _ _ _ _ ?_
    by_contra hin
    exact hp ⟨a - s.i.toNat, by omega, congrArg Part.byte (by omega)⟩
  | _ => rfl

/-- A frame may name more parts than have changed. -/
theorem UnchangedExcept.mono {P Q : Part → Prop} {s t : State} (h : UnchangedExcept P s t) (hPQ : ∀ p, P p → Q p) :
    UnchangedExcept Q s t :=
  fun p hp => h p fun hP => hp (hPQ p hP)

theorem memWrite_base {s : State} {ws : List Byte} (hne : ws ≠ []) (h : s.i.toNat + ws.length ≤ 4096) :
    memWrite s s.base ws = .ok (s.storedAtI ws) := by
  have := List.length_pos_iff.2 hne
  exact memWrite_ok_iff.2 ⟨⟨by rw [State.base]; omega, h⟩, rfl⟩

theorem exec_ldB {x : RegNo} {s : State} (h : s.i.toNat + 3 ≤ 4096) :
    exec (.ldB x) s = .next (s.storedAtI (decimalDigits (s.reg x))) := by
  simp only [exec, execLdB, memWrite_base (List.cons_ne_nil _ _) (ws := decimalDigits (s.reg x)) h]

theorem exec_storeRegs {x : RegNo} {s : State} (h : s.i.toNat + (x.toNat + 1) ≤ 4096) :
    exec (.storeRegs x) s = .next (s.storedAtI (blockOfRegs s x)) := by
  have hlen := blockOfRegs_length s x
  have hne : blockOfRegs s x ≠ [] := List.length_pos_iff.1 (by omega)
  simp only [exec, execStoreRegs, memWrite_base hne (hlen ▸ h)]

/-! ## The decimal digits -/

/-- A number below 256 that is stored as a byte is read back. -/
theorem toNat_byte_storedAtI (s : State) {ws : List Byte} {k n : Nat} (hk : k < ws.length) (hws : ws[k] = BitVec.ofNat 8 n)
    (hn : n < 256) : ((s.storedAtI ws).byte (s.i.toNat + k)).toNat = n := by
  rw [s.byte_storedAtI hk, hws, BitVec.toNat_ofNat, Nat.mod_eq_of_lt hn]

/-- Settles O25: FX33 is the store of the three digits, each of which fits in a byte. -/
theorem decimalStoreResult : Obligations.DecimalStoreResult := by
  unfold Obligations.DecimalStoreResult
  refine ⟨decodesAs_ldB, fun x s hspan => ⟨_, exec_ldB hspan, ?_, ?_, ?_, ?_⟩⟩
  · exact toNat_byte_storedAtI s (ws := decimalDigits (s.reg x)) (show 0 < 3 by decide) rfl (by omega)
  · exact toNat_byte_storedAtI s (ws := decimalDigits (s.reg x)) (show 1 < 3 by decide) rfl (by omega)
  · exact toNat_byte_storedAtI s (ws := decimalDigits (s.reg x)) (show 2 < 3 by decide) rfl (by omega)
  · refine (unchangedExcept_storedAtI s _).mono ?_
    rintro _ ⟨k, hk, rfl⟩
    rw [decimalDigits_length] at hk
    interval_cases k <;> simp

/-! ## A block of registers -/

/-- FX55 stores `V[k]` at `I + k` (R186). -/
theorem byte_storedAtI_blockOfRegs (s : State) {x k : RegNo} (hk : k.toNat ≤ x.toNat) :
    (s.storedAtI (blockOfRegs s x)).byte (s.i.toNat + k.toNat) = s.reg k := by
  rw [s.byte_storedAtI (by rw [blockOfRegs_length]; omega), blockOfRegs_getElem, BitVec.ofNat_toNat, BitVec.setWidth_eq]

/-- Settles O26: FX55 is the store of the block, byte `k` of which is `V[k]`. -/
theorem blockStoreResult : Obligations.BlockStoreResult := by
  unfold Obligations.BlockStoreResult
  refine ⟨decodesAs_storeRegs, fun x s hspan => ⟨_, exec_storeRegs hspan, fun k => byte_storedAtI_blockOfRegs s, ?_⟩⟩
  refine (unchangedExcept_storedAtI s _).mono ?_
  rintro _ ⟨k, hk, rfl⟩
  rw [blockOfRegs_length] at hk
  exact ⟨k, by omega, rfl⟩

/-- The `n` bytes at `I`. -/
def State.bytesAtI (s : State) (n : Nat) : List Byte := s.mem.readBytes s.params.fontRom s.i.toNat n

theorem exec_loadRegs {x : RegNo} {s : State} (h : s.i.toNat + (x.toNat + 1) ≤ 4096) :
    exec (.loadRegs x) s = .next (s.setRegsFrom 0 (s.bytesAtI (x.toNat + 1))) := by
  have hread : memRead s s.base (blockLength x) = .ok (s.bytesAtI (x.toNat + 1)) :=
    memRead_ok_iff.2 ⟨⟨by rw [State.base]; omega, h⟩, rfl⟩
  simp only [exec, execLoadRegs, hread]

/-- FX65 loads `V[k]` for `k` up to `x` from `I + k` and no other register (R187). -/
theorem reg_setRegsFrom_bytesAtI (s : State) (x k : RegNo) :
    (s.setRegsFrom 0 (s.bytesAtI (x.toNat + 1))).reg k =
      if k.toNat ≤ x.toNat then s.byte (s.i.toNat + k.toNat) else s.reg k := by
  have hlen : (s.bytesAtI (x.toNat + 1)).length = x.toNat + 1 := Memory.readBytes_length ..
  rw [State.reg_setRegsFrom _ _ _ (by omega)]
  by_cases hk : k.toNat ≤ x.toNat
  · rw [dif_pos (by omega), if_pos hk]
    exact Memory.readBytes_getElem ..
  · rw [dif_neg (by omega), if_neg hk]

/-- Settles O27: FX65 writes registers up to `Vx` only, each from its byte. -/
theorem blockLoadResult : Obligations.BlockLoadResult := by
  unfold Obligations.BlockLoadResult
  refine ⟨decodesAs_loadRegs, fun x s hspan => ⟨_, exec_loadRegs hspan, fun k hk => ?_, fun p hp => ?_⟩⟩
  · rw [reg_setRegsFrom_bytesAtI, if_pos hk]
  · cases p with
    | reg k => exact (reg_setRegsFrom_bytesAtI s x k).trans (if_neg fun hk => hp ⟨k, hk, rfl⟩)
    | _ => rw [State.setRegsFrom_eq]; rfl

/-! ## What a load and a fetch see of a store -/

/-- Two states that differ in registers only, and hold the same in each register, are one. -/
theorem State.eq_of_reg {s t : State} (ht : t = { s with v := t.v }) (h : ∀ k, t.reg k = s.reg k) : t = s := by
  have hv : t.v = s.v := Vector.ext fun k hk => by
    have hreg := h (BitVec.ofNatLT k hk)
    simpa only [State.reg, BitVec.toNat_ofNatLT] using hreg
  rw [ht, hv]

/-- Settles O28: each register up to `Vx` is loaded from the byte it was stored to. -/
theorem blockLoadUndoesStore : Obligations.BlockLoadUndoesStore := by
  unfold Obligations.BlockLoadUndoesStore
  intro x s t hspan hstore
  rw [exec_storeRegs hspan] at hstore
  cases hstore
  have hload := exec_loadRegs (x := x) (s := s.storedAtI (blockOfRegs s x)) hspan
  rw [hload]
  refine congrArg Host.Outcome.next (State.eq_of_reg (State.setRegsFrom_eq ..) fun k => ?_)
  rw [reg_setRegsFrom_bytesAtI]
  split
  · next hk => exact byte_storedAtI_blockOfRegs s hk
  · rfl

/-- Settles O29: the fetch at `I` reads the bytes of `V0` and `V1`, in that order. -/
theorem fetchSeesStores : Obligations.FetchSeesStores := by
  unfold Obligations.FetchSeesStores
  intro x s t hx hspan hstore
  rw [exec_storeRegs hspan] at hstore
  cases hstore
  refine ⟨_, fetch_ok_iff.2 ⟨?_, rfl⟩, ?_⟩
  · have hword : s.i.toNat + 2 ≤ 4096 := by omega
    exact hword
  · have hhi := byte_storedAtI_blockOfRegs s (x := x) (k := 0) (Nat.zero_le _)
    have hlo := byte_storedAtI_blockOfRegs s (x := x) (k := 1) hx
    rw [toNat_wordOfBytes, ← hhi, ← hlo]
    rfl

end Sys2Proof.Machine

/-! PROOF. DXYN (R113, R115 to R118, R120): the cells its sprite covers are the cells its candidates hit, and what it leaves follows from the laws of the grid. -/

namespace Sys2Proof.Machine

/-! ## The sprite -/

theorem lands_iff {wrap : Bool} {col row : Nat} {c : Fin 64} {r : Fin 32} :
    placeCell wrap col row = some (c, r) ↔ Lands wrap col row c r :=
  placeCell_eq_some

/-- The candidates of the sprite that DXYN draws: the bits of the `n` bytes at `I`, from column `Vx` and row `Vy` (R117). -/
def State.spriteBits (s : State) (x y : RegNo) (n : Nibble) : List Candidate :=
  candidates (s.reg x).toNat (s.reg y).toNat (s.bytesAtI n.toNat)

/-- A cell the sprite covers is a cell a 1-bit among the candidates hits. -/
theorem hits_spriteBits {s : State} {x y : RegNo} {n : Nibble} {c : Fin 64} {r : Fin 32} :
    Hits s.wrap (s.spriteBits x y n) c r ↔ SpriteCovers s (s.reg x).toNat (s.reg y).toNat n.toNat c r := by
  have hlen : (s.bytesAtI n.toNat).length = n.toNat := Memory.readBytes_length ..
  have hbyte (k : Nat) (hk : k < (s.bytesAtI n.toNat).length) : (s.bytesAtI n.toNat)[k] = s.byte (s.i.toNat + k) :=
    Memory.readBytes_getElem ..
  constructor
  · rintro ⟨p, hp, hbit, hcell⟩
    obtain ⟨k, hk, b, hb, rfl⟩ := mem_candidates.1 hp
    rw [hbyte] at hbit
    exact ⟨k, hlen ▸ hk, b, hb, (getMsbD_eq_digit _ hb).1 hbit, lands_iff.1 hcell⟩
  · rintro ⟨k, hk, b, hb, hbit, hlands⟩
    have hk : k < (s.bytesAtI n.toNat).length := hlen.symm ▸ hk
    refine ⟨_, mem_candidates.2 ⟨k, hk, b, hb, rfl⟩, ?_, lands_iff.2 hlands⟩
    rw [hbyte]
    exact (getMsbD_eq_digit _ hb).2 hbit

/-- A sprite has at most 15 rows, so it covers no cell twice. -/
theorem spriteBits_apart (s : State) (x y : RegNo) (n : Nibble) : Apart s.wrap (s.spriteBits x y n) := by
  refine candidates_apart _ _ _ _ ?_
  have := n.isLt
  rw [State.bytesAtI, Memory.readBytes_length]
  omega

/-! ## The draw -/

/-- The grid and the collision after the sprite has been drawn. -/
def State.drawn (s : State) (x y : RegNo) (n : Nibble) : Display × Bool :=
  drawAll s.wrap (s.spriteBits x y n) (s.disp, false)

/-- The state DXYN leaves. -/
def State.afterDraw (s : State) (x y : RegNo) (n : Nibble) : State :=
  ({ s with disp := (s.drawn x y n).1 } : State).setReg vf (bool01 (s.drawn x y n).2)

theorem exec_drw {x y : RegNo} {n : Nibble} {s : State} (hi : s.i.toNat < 4096) (hspan : s.i.toNat + n.toNat ≤ 4096) :
    exec (.drw x y n) s = .next (s.afterDraw x y n) := by
  have hread : memRead s s.base n.toNat = .ok (s.bytesAtI n.toNat) := memRead_ok_iff.2 ⟨⟨hi, hspan⟩, rfl⟩
  simp only [exec, execDrw, hread, drawRows_eq_drawAll]
  rfl

theorem pixel_afterDraw_of_covers {s : State} {x y : RegNo} {n : Nibble} {c : Fin 64} {r : Fin 32}
    (h : SpriteCovers s (s.reg x).toNat (s.reg y).toNat n.toNat c r) : (s.afterDraw x y n).pixel c r = !s.pixel c r :=
  (drawAll_cell (spriteBits_apart s x y n) _ c r).1 (hits_spriteBits.2 h)

theorem pixel_afterDraw_of_not_covers {s : State} {x y : RegNo} {n : Nibble} {c : Fin 64} {r : Fin 32}
    (h : ¬ SpriteCovers s (s.reg x).toNat (s.reg y).toNat n.toNat c r) : (s.afterDraw x y n).pixel c r = s.pixel c r :=
  (drawAll_cell (spriteBits_apart s x y n) _ c r).2 fun hhit => h (hits_spriteBits.1 hhit)

/-- The draw collides exactly when the sprite covers a cell that is set (R113, R118). -/
theorem drawn_hit_iff {s : State} {x y : RegNo} {n : Nibble} : (s.drawn x y n).2 = true ↔
    ∃ c r, SpriteCovers s (s.reg x).toNat (s.reg y).toNat n.toNat c r ∧ s.pixel c r = true := by
  have hhit := drawAll_hit (spriteBits_apart s x y n) (s.disp, false)
  simp only [hits_spriteBits, Bool.false_eq_true, false_or] at hhit
  exact hhit

theorem flag_afterDraw (s : State) (x y : RegNo) (n : Nibble) :
    (s.afterDraw x y n).reg 15 = if (s.drawn x y n).2 = true then 1 else 0 :=
  State.reg_setReg_same ..

/-- `VF` is 1 after the draw exactly when the sprite covers a cell that was set before it. -/
theorem flag_afterDraw_eq_one_iff {s : State} {x y : RegNo} {n : Nibble} : (s.afterDraw x y n).reg 15 = 1 ↔
    ∃ c r, SpriteCovers s (s.reg x).toNat (s.reg y).toNat n.toNat c r ∧ s.pixel c r = true := by
  rw [flag_afterDraw, ← drawn_hit_iff]
  cases (s.drawn x y n).2 <;> decide

/-- A draw changes no part of a state but `VF` and pixels. -/
theorem unchangedExcept_afterDraw (s : State) (x y : RegNo) (n : Nibble) :
    UnchangedExcept (fun p => p = .reg 15 ∨ ∃ c r, p = .pixel c r) s (s.afterDraw x y n) := by
  intro p hp
  cases p with
  | reg j => exact State.reg_setReg_ne fun hj => hp (.inl (congrArg Part.reg hj))
  | pixel c r => exact absurd (.inr ⟨c, r, rfl⟩) hp
  | _ => rfl

/-- Settles O7: DXYN leaves `State.afterDraw`, of whose pixels and `VF` the lemmas above speak. -/
theorem drawSpriteResult : Obligations.DrawSpriteResult := by
  unfold Obligations.DrawSpriteResult
  refine ⟨decodesAs_drw, fun x y n s hi hspan => ⟨_, exec_drw hi hspan, fun c r => pixel_afterDraw_of_covers,
    fun c r => pixel_afterDraw_of_not_covers, flag_afterDraw_eq_one_iff.2, fun hclear => ?_, unchangedExcept_afterDraw s x y n⟩⟩
  have hmiss : ¬ (s.drawn x y n).2 = true := by
    rw [drawn_hit_iff]
    rintro ⟨c, r, hcovers, hset⟩
    exact Bool.false_ne_true ((hclear c r hcovers).symm.trans hset)
  rw [flag_afterDraw, if_neg hmiss]

/-! ## The same draw again -/

/-- What a sprite covers depends on memory, the parameters, `I` and the wrap mode, none of which a draw changes. -/
theorem spriteCovers_afterDraw {s : State} {x y : RegNo} {n : Nibble} {cx cy : Nat} {c : Fin 64} {r : Fin 32} :
    SpriteCovers (s.afterDraw x y n) cx cy n.toNat c r ↔ SpriteCovers s cx cy n.toNat c r := Iff.rfl

/-- Settles O8: the second draw covers the cells of the first, toggles them back, and finds set what the first found clear. -/
theorem drawTwiceRestoresScreen : Obligations.DrawTwiceRestoresScreen := by
  unfold Obligations.DrawTwiceRestoresScreen
  intro x y n s t u hi hspan hfirst hx hy hsecond
  rw [exec_drw hi hspan] at hfirst
  cases hfirst
  rw [exec_drw (s := s.afterDraw x y n) hi hspan] at hsecond
  cases hsecond
  have hcovers (c : Fin 64) (r : Fin 32) :
      SpriteCovers (s.afterDraw x y n) ((s.afterDraw x y n).reg x).toNat ((s.afterDraw x y n).reg y).toNat n.toNat c r ↔
        SpriteCovers s (s.reg x).toNat (s.reg y).toNat n.toNat c r := by
    rw [hx, hy, spriteCovers_afterDraw]
  refine ⟨fun c r => ?_, ?_⟩
  · by_cases hc : SpriteCovers s (s.reg x).toNat (s.reg y).toNat n.toNat c r
    · rw [pixel_afterDraw_of_covers ((hcovers c r).2 hc), pixel_afterDraw_of_covers hc, Bool.not_not]
    · rw [pixel_afterDraw_of_not_covers (mt (hcovers c r).1 hc), pixel_afterDraw_of_not_covers hc]
  · rw [flag_afterDraw_eq_one_iff]
    simp only [hcovers]
    refine exists_congr fun c => exists_congr fun r => and_congr_right fun hc => ?_
    rw [pixel_afterDraw_of_covers hc, Bool.not_eq_true']

end Sys2Proof.Machine

/-! PROOF. What instructions do not read (R30, R34, R35): an overlay of `ST`, the keyboard and the wrap mode before an instruction that does not read them is the same overlay after it. -/

namespace Sys2Proof.Machine

/-! ## The overlay -/

/-- The state with `ST`, the keyboard and the wrap mode replaced. -/
def State.overlay (s : State) (b : Byte) (k : Keys) (w : Bool) : State := { s with st := b, keys := k, wrap := w }

theorem State.overlay_self (s : State) : s.overlay s.st s.keys s.wrap = s := rfl

theorem State.skipIf_overlay (s : State) (c : Bool) (b : Byte) (k : Keys) (w : Bool) :
    (s.overlay b k w).skipIf c = (s.skipIf c).overlay b k w := by
  cases c <;> rfl

theorem State.setRegsFrom_overlay (s : State) (n : Nat) (bs : List Byte) (b : Byte) (k : Keys) (w : Bool) :
    (s.overlay b k w).setRegsFrom n bs = (s.setRegsFrom n bs).overlay b k w := by
  induction bs generalizing s n with
  | nil => rfl
  | cons c bs ih => exact ih (s.setReg (BitVec.ofNat 4 n) c) (n + 1)

/-! ## The instructions -/

/-- The instructions that read the keyboard (R35). -/
def ReadsKeys (i : Instr) : Prop := ∃ x, i = .skp x ∨ i = .sknp x ∨ i = .ldVxK x

/-- The instruction that reads the wrap mode (R34). -/
def ReadsWrap (i : Instr) : Prop := ∃ x y n, i = .drw x y n

/-- What an instruction leaves in `ST`, which it finds at `b`: FX18 alone writes it (R205). -/
def soundAfter (s : State) (b : Byte) : Instr → Byte
  | .ldStVx x => s.reg x
  | _ => b

/-- No fault reads the overlaid parts, nor does its record. -/
theorem exec_overlay_of_raises {i : Instr} {s t : State} {f : FaultCause} (hr : Raises i s f) (h : raise f s = .next t)
    (b : Byte) (k : Keys) (w : Bool) : exec i (s.overlay b k w) = .next (t.overlay b k w) := by
  rw [raise_eq_next.1 h]
  exact exec_of_raises hr

/-- An instruction commutes with an overlay of the parts it does not read; FX18 overwrites the `ST` of the overlay. -/
theorem exec_overlay {i : Instr} {s t : State} (h : exec i s = .next t) (b : Byte) {k : Keys} {w : Bool}
    (hk : ReadsKeys i → k = s.keys) (hw : ReadsWrap i → w = s.wrap) :
    exec i (s.overlay b k w) = .next (t.overlay (soundAfter s b i) k w) := by
  cases i with
  | ret =>
    obtain ⟨hs, hf⟩ | ⟨rest, a, hs, rfl⟩ := execRet_cases h
    · exact exec_overlay_of_raises (.inl ⟨rfl, rfl, hs⟩) hf b k w
    · exact exec_ret_of_stack hs
  | call nnn =>
    obtain ⟨hs, hf⟩ | ⟨hs, rfl⟩ := execCall_cases h
    · exact exec_overlay_of_raises (.inr (.inl ⟨nnn, rfl, rfl, hs⟩)) hf b k w
    · exact exec_call_of_not_full hs
  | drw x y n =>
    obtain rfl := hw ⟨x, y, n, rfl⟩
    obtain ⟨hr, hf⟩ | ⟨hr, -⟩ := execDrw_cases h
    · exact exec_overlay_of_raises (.inr (.inr (.inl ⟨_, rfl, rfl, by omega⟩))) hf b k _
    · rw [exec_drw hr.1 hr.2] at h
      cases h
      exact exec_drw hr.1 hr.2
  | ldB x =>
    obtain ⟨hr, hf⟩ | ⟨hr, rfl⟩ := execLdB_cases h
    · exact exec_overlay_of_raises (.inr (.inr (.inl ⟨_, rfl, rfl, by omega⟩))) hf b k w
    · exact exec_ldB hr.2
  | storeRegs x =>
    obtain ⟨hr, hf⟩ | ⟨hr, rfl⟩ := execStoreRegs_cases h
    · exact exec_overlay_of_raises (.inr (.inr (.inl ⟨_, rfl, rfl, by omega⟩))) hf b k w
    · exact exec_storeRegs hr.2
  | loadRegs x =>
    obtain ⟨hr, hf⟩ | ⟨hr, rfl⟩ := execLoadRegs_cases h
    · exact exec_overlay_of_raises (.inr (.inr (.inl ⟨_, rfl, rfl, by omega⟩))) hf b k w
    · exact (exec_loadRegs (s := s.overlay b k w) hr.2).trans (congrArg _ (State.setRegsFrom_overlay ..))
  | skp x =>
    obtain rfl := hk ⟨x, .inl rfl⟩
    obtain ⟨hr, hf⟩ | ⟨d, hd, rfl⟩ := execSkp_cases h
    · exact exec_overlay_of_raises (.inr (.inr (.inr ⟨x, rfl, rfl, hr⟩))) hf b _ w
    · exact (exec_skp_of_key (s := s.overlay b s.keys w) hd).trans (congrArg _ (State.skipIf_overlay ..))
  | sknp x =>
    obtain rfl := hk ⟨x, .inr (.inl rfl)⟩
    obtain ⟨hr, hf⟩ | ⟨d, hd, rfl⟩ := execSknp_cases h
    · exact exec_overlay_of_raises (.inr (.inr (.inr ⟨x, rfl, rfl, hr⟩))) hf b _ w
    · exact (exec_sknp_of_key (s := s.overlay b s.keys w) hd).trans (congrArg _ (State.skipIf_overlay ..))
  | ldVxK x =>
    obtain rfl := hk ⟨x, .inr (.inr rfl)⟩
    obtain ⟨hnone, rfl⟩ | ⟨d, hd, rfl⟩ := execLdVxK_cases h
    · exact exec_ldVxK_of_none hnone
    · exact exec_ldVxK_of_pressed hd
  | seImm | sneImm | seReg | sneReg =>
    cases h
    exact congrArg _ (State.skipIf_overlay ..)
  | _ =>
    cases h
    rfl

/-- An instruction leaves the keyboard and the wrap mode, and in `ST` what `soundAfter` says: it commutes with the overlay of what stands there. -/
theorem exec_eq_overlay {i : Instr} {s t : State} (h : exec i s = .next t) :
    t = t.overlay (soundAfter s s.st i) s.keys s.wrap := by
  have hself := exec_overlay h s.st (fun _ => rfl) (fun _ => rfl)
  rw [State.overlay_self, h] at hself
  exact Host.Outcome.next.inj hself

/-! ## The overlay of one part -/

theorem unchangedExcept_st_overlay (s : State) (b b' : Byte) (k : Keys) (w : Bool) :
    UnchangedExcept (· = .st) (s.overlay b k w) (s.overlay b' k w) := by
  intro p hp
  cases p with
  | st => exact absurd rfl hp
  | _ => rfl

theorem unchangedExcept_keys_overlay (s : State) (b : Byte) (k k' : Keys) (w : Bool) :
    UnchangedExcept (· = .keys) (s.overlay b k w) (s.overlay b k' w) := by
  intro p hp
  cases p with
  | keys => exact absurd rfl hp
  | _ => rfl

theorem unchangedExcept_wrap_overlay (s : State) (b : Byte) (k : Keys) (w w' : Bool) :
    UnchangedExcept (· = .wrap) (s.overlay b k w) (s.overlay b k w') := by
  intro p hp
  cases p with
  | wrap => exact absurd rfl hp
  | _ => rfl

/-- Settles O37: each change is an overlay that differs from the state in one part, and so are the two states after. -/
theorem unreadPartsHaveNoInfluence : Obligations.UnreadPartsHaveNoInfluence := by
  unfold Obligations.UnreadPartsHaveNoInfluence
  intro i s t h
  rw [exec_eq_overlay h]
  refine ⟨fun b => ?_, fun k hk => ?_, fun w hw => ?_⟩
  · exact ⟨_, exec_overlay h b (fun _ => rfl) (fun _ => rfl), unchangedExcept_st_overlay _ _ _ _ _⟩
  · have hread : ¬ ReadsKeys i := by
      rintro ⟨x, hx⟩
      obtain ⟨hskp, hsknp, hwait⟩ := hk x
      exact hx.elim hskp (·.elim hsknp hwait)
    exact ⟨_, exec_overlay h s.st (fun hr => absurd hr hread) (fun _ => rfl), unchangedExcept_keys_overlay _ _ _ _ _⟩
  · have hread : ¬ ReadsWrap i := fun ⟨x, y, n, hi⟩ => hw x y n hi
    exact ⟨_, exec_overlay h s.st (fun _ => rfl) (fun hr => absurd hr hread), unchangedExcept_wrap_overlay _ _ _ _ _⟩

end Sys2Proof.Machine

/-! PROOF. The host interface (R235 to R238, R260 to R266): the reads, the settings, RESET, LOAD, and what a halted block accepts. -/

namespace Sys2Proof.Machine

/-! ## The commands -/

theorem apply_load (s : State) (p : List Byte) : Command.apply (.load p) s =
    whenRunning s (if programWellFormed p then .next (s.loadProgram p) else .refused (.loadTooLong p.length)) := rfl

theorem apply_setKeys (s : State) (k : Keys) : Command.apply (.setKeys k) s = whenRunning s (.next { s with keys := k }) := rfl

theorem apply_setWrap (s : State) (b : Bool) : Command.apply (.setWrap b) s = whenRunning s (.next { s with wrap := b }) := rfl

theorem apply_reset (s : State) : Command.apply .reset s = .next s.resetBlock := rfl

theorem step_of_halted {s : State} {r : FaultRecord} (h : s.status = .halted r) : step s = .fault (.halted r) := by
  simp only [step, h]

/-- Settles O46: STEP looks at `status` first, the other four commands that need a running block go through `whenRunning`, and RESET does not look at it. -/
theorem haltedBlockAcceptsOnlyResetAndReads : Obligations.HaltedBlockAcceptsOnlyResetAndReads := by
  unfold Obligations.HaltedBlockAcceptsOnlyResetAndReads
  refine fun s r hhalted => ⟨step_of_halted hhalted, ?_, ?_, _, apply_reset s, State.resetBlock_status s⟩
  · rintro _ (rfl | rfl | ⟨p, rfl⟩ | ⟨k, rfl⟩ | ⟨b, rfl⟩)
    · exact step_of_halted hhalted
    · exact whenRunning_of_halted hhalted _
    · exact whenRunning_of_halted hhalted _
    · exact whenRunning_of_halted hhalted _
    · exact whenRunning_of_halted hhalted _
  · rintro _ (rfl | rfl | rfl) <;> rfl

/-- Settles O47: the reads hand back the field they name, and a STEP the record that its fault left in `status`. -/
theorem readsReport : Obligations.ReadsReport := by
  unfold Obligations.ReadsReport
  refine fun s => ⟨rfl, rfl, rfl, ⟨s.disp, rfl, fun _ _ => rfl⟩, ?_, rfl, fun w f hfault => ?_⟩
  · have hsound : s.soundOn = decide (s.st ≠ 0) := by rw [Bool.eq_iff_iff, State.soundOn_iff, decide_eq_true_iff]
    exact congrArg (fun b => some (Reply.sound b)) hsound
  · rw [StepFaults] at hfault
    simp only [Command.reply, hfault, State.haltRecord, Option.map_some]

/-- Settles O48: each command replaces one field. -/
theorem hostSettingsResult : Obligations.HostSettingsResult := by
  unfold Obligations.HostSettingsResult
  refine fun s k b hrun => ⟨⟨_, (apply_setKeys s k).trans (whenRunning_of_running hrun _), rfl, ?_⟩,
    ⟨_, (apply_setWrap s b).trans (whenRunning_of_running hrun _), rfl, ?_⟩⟩
  · exact unchangedExcept_keys_overlay s s.st s.keys k s.wrap
  · exact unchangedExcept_wrap_overlay s s.st s.keys s.wrap b

/-! ## RESET and LOAD -/

theorem unlisted_of_lt {font : Vector Byte 80} {a : Nat} (h : a < 80) : unlisted font a = font[a] := dif_pos h

theorem unlisted_of_le {font : Vector Byte 80} {a : Nat} (h : 80 ≤ a) : unlisted font a = 0 := dif_neg (by omega)

/-- Settles O49: RESET is the construction state but for what it keeps, and memory that lists nothing reads as the construction image. -/
theorem resetResult : Obligations.ResetResult := by
  unfold Obligations.ResetResult
  refine fun s => ⟨_, apply_reset s, fun k => ?_, rfl, rfl, rfl, rfl, rfl, fun a ha => unlisted_of_lt ha, fun a ha => unlisted_of_le ha,
    fun c r => Display.cell_clear c r, rfl, rfl, rfl, rfl⟩
  simp only [State.reg, State.resetBlock_v, Vector.getElem_replicate]

theorem apply_load_of_fits {s : State} {p : List Byte} (hrun : s.status = .running) (hp : p.length ≤ 3584) :
    Command.apply (.load p) s = .next (s.loadProgram p) := by
  rw [apply_load, whenRunning_of_running hrun, if_pos ((programWellFormed_iff p).2 hp)]

theorem apply_load_of_too_long {s : State} {p : List Byte} (hrun : s.status = .running) (hp : 3584 < p.length) :
    Command.apply (.load p) s = .refused (.loadTooLong p.length) := by
  rw [apply_load, whenRunning_of_running hrun, if_neg (by rw [programWellFormed_iff]; omega)]

/-- A LOAD changes no part of a state but the bytes of the program (R264). -/
theorem unchangedExcept_loadProgram (s : State) (p : List Byte) :
    UnchangedExcept (fun q => ∃ k, k < p.length ∧ q = .byte (0x200 + k)) s (s.loadProgram p) := by
  intro q hq
  cases q with
  | byte a =>
    refine Memory.read_writeBytes_outside _ _ _ _ _ ?_
    by_contra hin
    simp only [Config.progBase] at hin
    exact hq ⟨a - 0x200, by omega, congrArg Part.byte (by omega)⟩
  | _ => rfl

/-- Settles O50: a program that fits is copied by `loadProgram`, and a longer one is not well formed. -/
theorem loadResult : Obligations.LoadResult := by
  unfold Obligations.LoadResult
  exact fun s p hrun => ⟨fun hp => ⟨_, apply_load_of_fits hrun hp, fun k hk => Memory.read_writeBytes_inside _ _ _ _ _ hk,
    unchangedExcept_loadProgram s p⟩, apply_load_of_too_long hrun⟩

/-- A run of one command more. -/
theorem runCommands_cons {c : Command} {cs : List Command} {s t : State} (h : c.apply s = .next t) :
    runCommands (c :: cs) s = runCommands cs t := by
  simp only [runCommands, h]

/-- A run that is one LOAD into a running block. -/
theorem runCommands_load {s : State} {p : List Byte} (hrun : s.status = .running) (hp : p.length ≤ 3584) :
    runCommands [.load p] s = .next (s.loadProgram p) :=
  runCommands_cons (apply_load_of_fits hrun hp)

/-- Settles O51: RESET gives the construction state but for `wrap`, `keys` and the count of draws, and LOAD does not touch those. -/
theorem resetThenLoadIsConstructionThenLoad : Obligations.ResetThenLoadIsConstructionThenLoad := by
  unfold Obligations.ResetThenLoadIsConstructionThenLoad
  intro s p hp
  have hreset : runCommands [.reset, .load p] s = .next (s.resetBlock.loadProgram p) :=
    (runCommands_cons (apply_reset s)).trans (runCommands_load (State.resetBlock_status s) hp)
  refine ⟨_, _, hreset, runCommands_load rfl hp, rfl, rfl, rfl, fun k => ?_⟩
  exact Vector.getElem_replicate ..

/-! ## No program -/

/-- With nothing in memory at 0x200 the fetch gives the word 0x0000, which is illegal (R260, R263). -/
theorem stepFaults_of_no_program {s : State} (hrun : s.status = .running) (hpc : s.pc = 0x200) (hmem : s.mem = []) :
    StepFaults s (some 0x0000) .illegalInstruction := by
  have hzero (a : Nat) (ha : 80 ≤ a) : s.byte a = 0 := by
    rw [State.byte, hmem, Memory.read_nil, unlisted_of_le ha]
  have hfetch : fetch s = .ok 0x0000 := by
    refine fetch_ok_iff.2 ⟨by rw [hpc]; decide, ?_⟩
    rw [hpc, hzero _ (by decide), hzero _ (by decide)]
    rfl
  exact stepFaults_of_decode hrun hfetch rfl

/-- Settles O52: construction and RESET both leave a running block at 0x200 with nothing in memory but the font. -/
theorem noProgramFaultsAtOnce : Obligations.NoProgramFaultsAtOnce := by
  unfold Obligations.NoProgramFaultsAtOnce
  exact ⟨fun _ => stepFaults_of_no_program rfl rfl rfl, fun _ => stepFaults_of_no_program rfl rfl rfl,
    fun _ => ⟨rfl, rfl⟩, fun _ => ⟨rfl, rfl⟩⟩

end Sys2Proof.Machine
